-- ==== Sys2Proof/Word.lean ====
section
/-! DEFINITION. The word types of the machine (spec/00_scope.md R6: all quantities are unsigned). -/

namespace Sys2Proof

/-- A byte of memory, a general register or a timer (R4: REG_W = TIMER_W = 8). -/
abbrev Byte := BitVec 8

/-- An instruction word, the index register, the program counter or a stack slot (R4: INSTR_W = I_W = PC_W = 16). -/
abbrev Word := BitVec 16

/-- A 4-bit field: a register index, a row count or a key code (R61, R4: KEY_W = 4). -/
abbrev Nibble := BitVec 4

/-- The 12-bit address field `nnn` (R61). -/
abbrev Addr := BitVec 12

end Sys2Proof
end

