-- ==== Sys2Proof/Config.lean ====
section
/-! DEFINITION. What an implementation fixes (the six open parameters of spec/00_scope.md R5) and the free values of
a step (the environment's draws of spec/40_step_cycle.md R81 and R89). -/

namespace Sys2Proof

/-- DRAW_FLAG_MODE (R5, R163 (3), decision D13): what a colliding draw writes to VF. -/
inductive DrawFlagMode where
  /-- `VF <- VF or 1`. -/
  | orAccumulate
  /-- `VF <- 1`. -/
  | setOne
  deriving DecidableEq, Repr

/-- The parameters that the source leaves open (R5). "The model takes each as an argument (a configuration field)":
the machine carries one `Config` in its state, no step changes it, and a statement about every state is a statement
about every configuration (notes/assumptions/1). -/
structure Config where
  /-- EXIT_WORD (R65, decision D2). -/
  exitWord : Word
  /-- FONT_BASE (R23, decision D3). -/
  fontBase : Nat
  /-- FONT_GLYPHS (R24, decision D4): 16 glyphs of 5 rows, the top row first. -/
  fontGlyphs : Vector (Vector Byte 5) 16
  /-- SHIFT_USES_VY (R129, decision D5). -/
  shiftUsesVy : Bool
  /-- DRAW_FLAG_MODE (R163, decision D13). -/
  drawFlagMode : DrawFlagMode
  /-- INIT_MEM (R20, R28, decision D19): the bytes that are not zero after reset, outside the font table; every
  address not listed is zero (DESIGN CHOICE, safe, notes/assumptions/3). -/
  initMem : List Host.Cell
  deriving DecidableEq, Repr

/-- FREE VALUE: the time the environment proposes for the n-th STEP (R81 `now`; DESIGN CHOICE, safe,
notes/assumptions/5). No body that a proof can see: a claim that mentions it holds for every sequence of times. The
step takes the later of it and the last time (`drawInput`), which is R81's monotonicity. -/
opaque Config.freeNow : Nat → Rat

/-- FREE VALUE: what the host last wrote to the key latch between the (n-1)-th STEP and the n-th, or `none` where it
wrote nothing (R89: "A model should treat the latch value at the start of each step as a draw"; DEDUCED, safe,
notes/assumptions/8). -/
opaque Config.freeKey : Nat → Option (Option Nibble)

/-- FREE VALUE: the random byte the environment supplies to the n-th STEP (R81 `rnd`, R171; DESIGN CHOICE, safe,
notes/assumptions/6). -/
opaque Config.freeRnd : Nat → Byte

end Sys2Proof
end

