-- ==== Sys2Proof/Machine/Defaults.lean ====
section
/-! DEFINITION. The sizes and addresses the source fixes (spec/00_scope.md R4), the default configuration (R5) and
the reset values of single registers (spec/10_state.md R28). They stand here, apart from State, so that each can be
mended on its own. -/

namespace Sys2Proof.Machine

/-- MEM_SIZE (R4): addresses are 0x000 to 0xFFF. -/
def memSize : Nat := 4096

/-- PROG_BASE (R4): the first program-owned address; below it lies the reserved low region (R41). -/
def progBase : Nat := 0x200

/-- The bytes of the font table: NGLYPHS times GLYPH_ROWS (R4). -/
def fontSize : Nat := 80

/-- The longest image LOAD accepts (R226). -/
def maxImage : Nat := 0xE00

/-- EXIT_WORD's default (R5, decision D2; PRESUMED, unsafe, notes/assumptions/2). -/
def defaultExitWord : Word := 0x00FD

/-- FONT_BASE's default (R5, decision D3; PRESUMED, unsafe, notes/assumptions/2). -/
def defaultFontBase : Nat := 0x050

/-- FONT_GLYPHS' default (the table of R24, decision D4; PRESUMED, unsafe, notes/assumptions/2). -/
def defaultFontGlyphs : Vector (Vector Byte 5) 16 := #v[
  #v[0xF0, 0x90, 0x90, 0x90, 0xF0], #v[0x20, 0x60, 0x20, 0x20, 0x70],
  #v[0xF0, 0x10, 0xF0, 0x80, 0xF0], #v[0xF0, 0x10, 0xF0, 0x10, 0xF0],
  #v[0x90, 0x90, 0xF0, 0x10, 0x10], #v[0xF0, 0x80, 0xF0, 0x10, 0xF0],
  #v[0xF0, 0x80, 0xF0, 0x90, 0xF0], #v[0xF0, 0x10, 0x20, 0x40, 0x40],
  #v[0xF0, 0x90, 0xF0, 0x90, 0xF0], #v[0xF0, 0x90, 0xF0, 0x10, 0xF0],
  #v[0xF0, 0x90, 0xF0, 0x90, 0x90], #v[0xE0, 0x90, 0xE0, 0x90, 0xE0],
  #v[0xF0, 0x80, 0x80, 0x80, 0xF0], #v[0xE0, 0x90, 0x90, 0x90, 0xE0],
  #v[0xF0, 0x80, 0xF0, 0x80, 0xF0], #v[0xF0, 0x80, 0xF0, 0x80, 0x80]]

/-- SHIFT_USES_VY's default (R5, decision D5; PRESUMED, unsafe, notes/assumptions/2). -/
def defaultShiftUsesVy : Bool := false

/-- DRAW_FLAG_MODE's default (R5, decision D13; PRESUMED, unsafe, notes/assumptions/2). -/
def defaultDrawFlagMode : DrawFlagMode := .orAccumulate

/-- INIT_MEM's default (R5, decision D19; PRESUMED, unsafe, notes/assumptions/2): all zero. -/
def defaultInitMem : List Host.Cell := []

/-- The configuration of spec/00_scope.md R5's "default" column. -/
def defaultConfig : Config where
  exitWord := defaultExitWord
  fontBase := defaultFontBase
  fontGlyphs := defaultFontGlyphs
  shiftUsesVy := defaultShiftUsesVy
  drawFlagMode := defaultDrawFlagMode
  initMem := defaultInitMem

/-- The reset value of `pc` (R28, R221). -/
def resetPc : Word := 0x200

/-- The reset value of every general register (R28). -/
def resetReg : Byte := 0

/-- The reset value of the index register (R28). -/
def resetI : Word := 0

/-- The reset value of every stack slot (R28, decision D19; DESIGN CHOICE, unsafe,
notes/assumptions/12). -/
def resetStackSlot : Word := 0

/-- The reset value of both timers (R28). -/
def resetTimer : Byte := 0

/-- The reset value of the key latch, "no key" (R28, decision D19; DESIGN CHOICE, unsafe,
notes/assumptions/12). -/
def resetKey : Option Nibble := none

/-- The reset value of every pixel, erased (R28, decision D19; DESIGN CHOICE, unsafe,
notes/assumptions/12). -/
def resetPixel : Bool := false

/-- The moment of `State.reset` on the model's time scale (R28: `t_last` is the time of reset; DESIGN CHOICE, unsafe,
notes/assumptions/11). -/
def resetTime : Rat := 0

end Sys2Proof.Machine
end

