-- ==== Sys2Proof/Syntax.lean ====
section
/-! DEFINITION. The instruction set as syntax: one constructor per row of spec/opcode_table.json, in the table's
order. Operands are the fields of spec/30_encoding.md R61: `x`, `y` register indices, `kk` the 8-bit immediate,
`nnn` the 12-bit address, `n` the row count. -/

namespace Sys2Proof

inductive Instr where
  /-- CLS (R161). -/
  | cls
  /-- RET (R101). -/
  | ret
  /-- EXIT (R102). -/
  | exit
  /-- JP nnn (R103). -/
  | jp (nnn : Addr)
  /-- CALL nnn (R104). -/
  | call (nnn : Addr)
  /-- SE Vx,kk (R105). -/
  | seImm (x : Nibble) (kk : Byte)
  /-- SNE Vx,kk (R106). -/
  | sneImm (x : Nibble) (kk : Byte)
  /-- SE Vx,Vy (R107). -/
  | seReg (x y : Nibble)
  /-- LD Vx,kk (R121). -/
  | ldImm (x : Nibble) (kk : Byte)
  /-- ADD Vx,kk (R122). -/
  | addImm (x : Nibble) (kk : Byte)
  /-- LD Vx,Vy (R123). -/
  | ldReg (x y : Nibble)
  /-- OR Vx,Vy (R124). -/
  | orReg (x y : Nibble)
  /-- AND Vx,Vy (R125). -/
  | andReg (x y : Nibble)
  /-- XOR Vx,Vy (R126). -/
  | xorReg (x y : Nibble)
  /-- ADD Vx,Vy (R127). -/
  | addReg (x y : Nibble)
  /-- SUB Vx,Vy (R128). -/
  | subReg (x y : Nibble)
  /-- SHR Vx{,Vy} (R129). -/
  | shr (x y : Nibble)
  /-- SUBN Vx,Vy (R130). -/
  | subnReg (x y : Nibble)
  /-- SHL Vx{,Vy} (R131). -/
  | shl (x y : Nibble)
  /-- SNE Vx,Vy (R108). -/
  | sneReg (x y : Nibble)
  /-- LD I,nnn (R141). -/
  | ldI (nnn : Addr)
  /-- JP V0,nnn (R109). -/
  | jpV0 (nnn : Addr)
  /-- RND Vx,kk (R171). -/
  | rnd (x : Nibble) (kk : Byte)
  /-- DRW Vx,Vy,n (R162). -/
  | drw (x y n : Nibble)
  /-- SKP Vx (R172). -/
  | skp (x : Nibble)
  /-- SKNP Vx (R173). -/
  | sknp (x : Nibble)
  /-- LD Vx,DT (R174). -/
  | ldVxDt (x : Nibble)
  /-- LD Vx,K (R175). -/
  | ldVxK (x : Nibble)
  /-- LD DT,Vx (R176). -/
  | ldDtVx (x : Nibble)
  /-- LD ST,Vx (R177). -/
  | ldStVx (x : Nibble)
  /-- ADD I,Vx (R142). -/
  | addI (x : Nibble)
  /-- LD F,Vx (R143). -/
  | ldF (x : Nibble)
  /-- LD B,Vx (R144). -/
  | ldB (x : Nibble)
  /-- LD [I],Vx (R145): `x` is the inclusive upper register index. -/
  | storeRegs (x : Nibble)
  /-- LD Vx,[I] (R146): `x` is the inclusive upper register index. -/
  | loadRegs (x : Nibble)
  deriving DecidableEq, Repr

end Sys2Proof
end

