-- ==== Sys2Proof/WellFormed.lean ====
section
/-! DEFINITION. Well-formedness. An instruction's fields have exactly the widths of spec/30_encoding.md R61, so every
`Instr` is well formed by its type ("always in [0,15] by construction"); what can be ill formed is a configuration,
whose constraints spec/00_scope.md R5 gives. -/

namespace Sys2Proof

/-- Every instruction term is encodable: R61's fields are bit vectors of the fields' widths (notes/assumptions/17). -/
def Instr.wellFormed (_ : Instr) : Bool := true

/-- EXIT_WORD: "not 0x00E0, not 0x00EE; top nibble 0" (R5). -/
def Config.exitWordOk (c : Config) : Bool :=
  c.exitWord ≠ 0x00E0 && c.exitWord ≠ 0x00EE && c.exitWord.extractLsb' 12 4 == 0

/-- FONT_BASE: "an address with FONT_BASE + 80 <= 0x200" (R5). -/
def Config.fontBaseOk (c : Config) : Bool := c.fontBase + 80 ≤ 0x200

/-- FONT_GLYPHS: "low nibble of every byte 0" (R5). -/
def Config.fontGlyphsOk (c : Config) : Bool :=
  c.fontGlyphs.toList.all fun glyph => glyph.toList.all fun row => row.extractLsb' 0 4 == 0

/-- INIT_MEM: contents of memory, so every listed address is one of the 4096 (R5, R20). -/
def Config.initMemOk (c : Config) : Bool := c.initMem.all fun cell => cell.1 < 4096

/-- The constraints of R5's table, all together. -/
def Config.wellFormed (c : Config) : Bool :=
  c.exitWordOk && c.fontBaseOk && c.fontGlyphsOk && c.initMemOk

end Sys2Proof
end

