-- ==== Sys2Proof/Decode.lean ====
section
/-! DEFINITION. The decoder and, after it, the encoder, from spec/30_encoding.md R60 to R70 and
spec/opcode_table.json. PRESUMED, unsafe: the numbers are the spec's decision D1, the
family's (notes/assumptions/16). -/

namespace Sys2Proof

/-- Why a byte sequence is no instruction: one name per line of R70's table of illegal words. -/
inductive DecodeError where
  /-- Fewer than two bytes were given: an instruction is one 16-bit word (R60). -/
  | truncated
  /-- `0x0nnn` other than the three exact words (R65, R70). -/
  | family0
  /-- `0x5xyn` with `n` not 0 (R66, R70). -/
  | family5
  /-- `0x8xyn` with an `n` that selects nothing (R67, R70). -/
  | family8
  /-- `0x9xyn` with `n` not 0 (R66, R70). -/
  | family9
  /-- `0xExkk` with a `kk` that selects nothing (R68, R70). -/
  | familyE
  /-- `0xFxkk` with a `kk` that selects nothing (R69, R70). -/
  | familyF
  deriving DecidableEq, Repr

/-- `op = w[15:12]` (R61). -/
def opField (w : Word) : Nibble := w.extractLsb' 12 4

/-- `nnn = w[11:0]` (R61). -/
def nnnField (w : Word) : Addr := w.extractLsb' 0 12

/-- `x = w[11:8]` (R61). -/
def xField (w : Word) : Nibble := w.extractLsb' 8 4

/-- `y = w[7:4]` (R61). -/
def yField (w : Word) : Nibble := w.extractLsb' 4 4

/-- `kk = w[7:0]` (R61). -/
def kkField (w : Word) : Byte := w.extractLsb' 0 8

/-- `n = w[3:0]` (R61). -/
def nField (w : Word) : Nibble := w.extractLsb' 0 4

/-- Family 8 by its low nibble (R67). -/
def decodeAlu (x y n : Nibble) : Except DecodeError Instr :=
  match n.toNat with
  | 0x0 => .ok (.ldReg x y)
  | 0x1 => .ok (.orReg x y)
  | 0x2 => .ok (.andReg x y)
  | 0x3 => .ok (.xorReg x y)
  | 0x4 => .ok (.addReg x y)
  | 0x5 => .ok (.subReg x y)
  | 0x6 => .ok (.shr x y)
  | 0x7 => .ok (.subnReg x y)
  | 0xE => .ok (.shl x y)
  | _ => .error .family8

/-- Family E by its low byte (R68). -/
def decodeKey (x : Nibble) (kk : Byte) : Except DecodeError Instr :=
  if kk = 0x9E then .ok (.skp x)
  else if kk = 0xA1 then .ok (.sknp x)
  else .error .familyE

/-- Family F by its low byte (R69). -/
def decodeMisc (x : Nibble) (kk : Byte) : Except DecodeError Instr :=
  if kk = 0x07 then .ok (.ldVxDt x)
  else if kk = 0x0A then .ok (.ldVxK x)
  else if kk = 0x15 then .ok (.ldDtVx x)
  else if kk = 0x18 then .ok (.ldStVx x)
  else if kk = 0x1E then .ok (.addI x)
  else if kk = 0x29 then .ok (.ldF x)
  else if kk = 0x33 then .ok (.ldB x)
  else if kk = 0x55 then .ok (.storeRegs x)
  else if kk = 0x65 then .ok (.loadRegs x)
  else .error .familyF

/-- The family match on the top nibble (R64 steps 2 to 4, R65 to R69). -/
def decodeFamily (w : Word) : Except DecodeError Instr :=
  match (opField w).toNat with
  | 0x0 => .error .family0
  | 0x1 => .ok (.jp (nnnField w))
  | 0x2 => .ok (.call (nnnField w))
  | 0x3 => .ok (.seImm (xField w) (kkField w))
  | 0x4 => .ok (.sneImm (xField w) (kkField w))
  | 0x5 => if nField w = 0 then .ok (.seReg (xField w) (yField w)) else .error .family5
  | 0x6 => .ok (.ldImm (xField w) (kkField w))
  | 0x7 => .ok (.addImm (xField w) (kkField w))
  | 0x8 => decodeAlu (xField w) (yField w) (nField w)
  | 0x9 => if nField w = 0 then .ok (.sneReg (xField w) (yField w)) else .error .family9
  | 0xA => .ok (.ldI (nnnField w))
  | 0xB => .ok (.jpV0 (nnnField w))
  | 0xC => .ok (.rnd (xField w) (kkField w))
  | 0xD => .ok (.drw (xField w) (yField w) (nField w))
  | 0xE => decodeKey (xField w) (kkField w)
  | _ => decodeMisc (xField w) (kkField w)

/-- The layered match of R64: first the three exact words, then the families. `exitWord` is the parameter EXIT_WORD
(R65), "tested after 0x00E0 and 0x00EE and before declaring family 0 illegal". -/
def decodeWord (exitWord w : Word) : Except DecodeError Instr :=
  if w = 0x00E0 then .ok .cls
  else if w = 0x00EE then .ok .ret
  else if w = exitWord then .ok .exit
  else decodeFamily w

/-- Two bytes as an instruction word, the byte at the lower address in `w[15:8]` (R42). -/
def wordOfBytes (hi lo : Byte) : Word := hi ++ lo

/-- The decoder on any bytes: one instruction from the first two, and the rest (R42, R60). -/
def decodeBytes (exitWord : Word) : List Byte → Except DecodeError (Instr × List Byte)
  | hi :: lo :: rest =>
    match decodeWord exitWord (wordOfBytes hi lo) with
    | .ok i => .ok (i, rest)
    | .error e => .error e
  | _ => .error .truncated

/-- The word of an instruction with an address field, format A (R62). -/
def formatA (op : Nibble) (nnn : Addr) : Word := op ++ nnn

/-- The word of an instruction with a register and an immediate, format XK, and of format X, whose sub-selector
stands in the place of `kk` (R62). -/
def formatXK (op x : Nibble) (kk : Byte) : Word := op ++ (x ++ kk)

/-- The word of an instruction with two registers, format XY, and of format XYN (R62). -/
def formatXYN (op x y n : Nibble) : Word := op ++ (x ++ (y ++ n))

/-- The encoder, from the patterns of R65 to R69. -/
def encode (exitWord : Word) : Instr → Word
  | .cls => 0x00E0
  | .ret => 0x00EE
  | .exit => exitWord
  | .jp nnn => formatA 0x1 nnn
  | .call nnn => formatA 0x2 nnn
  | .seImm x kk => formatXK 0x3 x kk
  | .sneImm x kk => formatXK 0x4 x kk
  | .seReg x y => formatXYN 0x5 x y 0x0
  | .ldImm x kk => formatXK 0x6 x kk
  | .addImm x kk => formatXK 0x7 x kk
  | .ldReg x y => formatXYN 0x8 x y 0x0
  | .orReg x y => formatXYN 0x8 x y 0x1
  | .andReg x y => formatXYN 0x8 x y 0x2
  | .xorReg x y => formatXYN 0x8 x y 0x3
  | .addReg x y => formatXYN 0x8 x y 0x4
  | .subReg x y => formatXYN 0x8 x y 0x5
  | .shr x y => formatXYN 0x8 x y 0x6
  | .subnReg x y => formatXYN 0x8 x y 0x7
  | .shl x y => formatXYN 0x8 x y 0xE
  | .sneReg x y => formatXYN 0x9 x y 0x0
  | .ldI nnn => formatA 0xA nnn
  | .jpV0 nnn => formatA 0xB nnn
  | .rnd x kk => formatXK 0xC x kk
  | .drw x y n => formatXYN 0xD x y n
  | .skp x => formatXK 0xE x 0x9E
  | .sknp x => formatXK 0xE x 0xA1
  | .ldVxDt x => formatXK 0xF x 0x07
  | .ldVxK x => formatXK 0xF x 0x0A
  | .ldDtVx x => formatXK 0xF x 0x15
  | .ldStVx x => formatXK 0xF x 0x18
  | .addI x => formatXK 0xF x 0x1E
  | .ldF x => formatXK 0xF x 0x29
  | .ldB x => formatXK 0xF x 0x33
  | .storeRegs x => formatXK 0xF x 0x55
  | .loadRegs x => formatXK 0xF x 0x65

/-- A row of spec/opcode_table.json: the bits that are fixed (`mask`) and their values (`value`). -/
structure OpcodeRow where
  mask : Word
  value : Word
  deriving DecidableEq, Repr

/-- The table's row of each instruction; EXIT's `match` "is the parameter EXIT_WORD". -/
def Instr.row (exitWord : Word) : Instr → OpcodeRow
  | .cls => ⟨0xFFFF, 0x00E0⟩
  | .ret => ⟨0xFFFF, 0x00EE⟩
  | .exit => ⟨0xFFFF, exitWord⟩
  | .jp _ => ⟨0xF000, 0x1000⟩
  | .call _ => ⟨0xF000, 0x2000⟩
  | .seImm _ _ => ⟨0xF000, 0x3000⟩
  | .sneImm _ _ => ⟨0xF000, 0x4000⟩
  | .seReg _ _ => ⟨0xF00F, 0x5000⟩
  | .ldImm _ _ => ⟨0xF000, 0x6000⟩
  | .addImm _ _ => ⟨0xF000, 0x7000⟩
  | .ldReg _ _ => ⟨0xF00F, 0x8000⟩
  | .orReg _ _ => ⟨0xF00F, 0x8001⟩
  | .andReg _ _ => ⟨0xF00F, 0x8002⟩
  | .xorReg _ _ => ⟨0xF00F, 0x8003⟩
  | .addReg _ _ => ⟨0xF00F, 0x8004⟩
  | .subReg _ _ => ⟨0xF00F, 0x8005⟩
  | .shr _ _ => ⟨0xF00F, 0x8006⟩
  | .subnReg _ _ => ⟨0xF00F, 0x8007⟩
  | .shl _ _ => ⟨0xF00F, 0x800E⟩
  | .sneReg _ _ => ⟨0xF00F, 0x9000⟩
  | .ldI _ => ⟨0xF000, 0xA000⟩
  | .jpV0 _ => ⟨0xF000, 0xB000⟩
  | .rnd _ _ => ⟨0xF000, 0xC000⟩
  | .drw _ _ _ => ⟨0xF000, 0xD000⟩
  | .skp _ => ⟨0xF0FF, 0xE09E⟩
  | .sknp _ => ⟨0xF0FF, 0xE0A1⟩
  | .ldVxDt _ => ⟨0xF0FF, 0xF007⟩
  | .ldVxK _ => ⟨0xF0FF, 0xF00A⟩
  | .ldDtVx _ => ⟨0xF0FF, 0xF015⟩
  | .ldStVx _ => ⟨0xF0FF, 0xF018⟩
  | .addI _ => ⟨0xF0FF, 0xF01E⟩
  | .ldF _ => ⟨0xF0FF, 0xF029⟩
  | .ldB _ => ⟨0xF0FF, 0xF033⟩
  | .storeRegs _ => ⟨0xF0FF, 0xF055⟩
  | .loadRegs _ => ⟨0xF0FF, 0xF065⟩

/-- The bytes of a word as memory holds it, the high byte first (R42). -/
def bytesOfWord (w : Word) : List Byte := [w.extractLsb' 8 8, w.extractLsb' 0 8]

/-- The host's entry to the decoder, at the default configuration: bit 0 of `w` is the least significant bit of the
one instruction word (R6, R60). Every instruction is exactly 16 bits long, so a shorter `nbits` leaves the bits above
it zero. -/
def decodeTableWord (nbits w : Nat) : Option Instr :=
  match decodeBytes Machine.defaultExitWord (bytesOfWord (BitVec.ofNat 16 (w % 2 ^ nbits))) with
  | .ok (i, _) => some i
  | .error _ => none

end Sys2Proof
end

