-- ==== Sys2Proof/Machine/State.lean ====
section
/-! DEFINITION. The machine's state as plain data (spec/10_state.md R10: "The complete state of CORE is the tuple
below. Nothing else is state."), the fault kinds, the refusals and the state after reset (R28). -/

namespace Sys2Proof.Machine

/-- The three fault kinds, a closed set (spec/60_exceptions.md R190). A fault is latched in `State.fault` and the
step that raises it answers a NEXT state (R193: what survives is specified); so no step answers `Outcome.fault`, and
the type stands in that place of the host's interface only because it is the machine's set of fault kinds
(notes/assumptions/9). -/
inductive Fault where
  /-- MemoryProtectionFault: raised by the range check and the fetch of a step and by LD B, LD [I], LD Vx,[I] and DRW
  (R191, M1 to M10). Safe: the spec raises it there. -/
  | memoryProtection
  /-- StackFault: raised by CALL on a full stack and RET on an empty one (R192). Safe: the spec raises it there. -/
  | stack
  /-- DecodeFault: raised by a step whose fetched word is no instruction (R192). Safe: the spec raises it there. -/
  | decode
  deriving DecidableEq, Repr

/-- Why the model gives something no meaning. -/
inductive Refusal where
  /-- An instruction whose meaning is not written; raised by no arm of `exec` in this model. Safe: nothing can be
  proved of a state it does not reach. -/
  | notModelled (mnemonic : String)
  /-- LOAD of an image longer than 3584 bytes: "undefined by this design" (spec/70_reset_and_hazards.md R226); raised
  by the host transaction LOAD only, by no instruction. Safe: R226 asks for exactly this refusal. -/
  | imageTooLong
  deriving DecidableEq, Repr

/-- Memory: the bytes that differ from what reset left (R20), as address and byte pairs in the canonical form
`Memory.wf` of Machine/Ops.lean. -/
abbrev Memory := List Host.Cell

/-- One row of the framebuffer: 64 pixels, column 0 leftmost (R22). -/
abbrev PixelRow := Vector Bool 64

/-- The framebuffer: 32 rows, row 0 at the top; `true` is a set pixel (R22). -/
abbrev Framebuffer := Vector PixelRow 32

/-- The two inputs of one STEP transaction (spec/40_step_cycle.md R81). -/
structure StepInput where
  /-- The current time, in seconds (notes/assumptions/4). -/
  now : Rat
  /-- One byte, used only if the instruction is RND. -/
  rnd : Byte
  deriving DecidableEq, Repr

/-- The state of CORE (R10). The last three fields are the model's own. -/
structure State where
  /-- `V[0..15]`, the general registers; `V[15]` is VF (R11, R12). -/
  v : Vector Byte 16
  /-- `I`, the index register (R13). -/
  i : Word
  /-- The program counter (R14). -/
  pc : Word
  /-- `stack[0..15]`, the return addresses (R15). -/
  stack : Vector Word 16
  /-- The stack depth counter, an integer in [0, 16] (R16). -/
  depth : Fin 17
  /-- The delay timer (R17). -/
  dt : Byte
  /-- The sound timer (R18). -/
  st : Byte
  /-- `t_last`, the time of the last timer update, in seconds (R19). -/
  tLast : Rat
  /-- `mem[0..4095]` (R20). -/
  mem : Memory
  /-- The key latch: "no key" or a 4-bit code (R21). -/
  key : Option Nibble
  /-- The framebuffer (R22). -/
  fb : Framebuffer
  /-- The fault latch (R25). -/
  fault : Option Fault
  /-- The model's own: the configuration (R5), which no step changes (notes/assumptions/1). -/
  cfg : Config
  /-- The model's own: the inputs of the STEP being executed, so between steps those of the last one, whose `now` is
  the time that the next may not precede (R81; notes/assumptions/5, notes/assumptions/7). -/
  input : StepInput
  /-- The model's own: how many STEPs the environment has drawn for, so that each takes fresh free values
  (notes/assumptions/7). -/
  draws : Nat
  deriving DecidableEq, Repr

/-- The state after RESET performed at time `now` (R28, R220), for any configuration; `draws` is the model's own
counter. The spec does not order the time of a later RESET after the `now` of earlier STEPs: the model accepts any
(DESIGN CHOICE, safe, notes/assumptions/40). -/
def State.resetAt (cfg : Config) (now : Rat) (draws : Nat) : State where
  v := Vector.replicate 16 resetReg
  i := resetI
  pc := resetPc
  stack := Vector.replicate 16 resetStackSlot
  depth := 0
  dt := resetTimer
  st := resetTimer
  tLast := now
  mem := []
  key := resetKey
  fb := Vector.replicate 32 (Vector.replicate 64 resetPixel)
  fault := none
  cfg := cfg
  input := { now := now, rnd := 0 }
  draws := draws

/-- The machine right after reset, at the default configuration (R28, R220). -/
def State.reset : State := State.resetAt defaultConfig resetTime 0

end Sys2Proof.Machine
end

