-- ==== Sys2Proof/Machine/Ops.lean ====
section
/-! DEFINITION. The named operations over memory, registers, the stack and the framebuffer, and raising a fault: the
machine's one way of taking an exception. -/

namespace Sys2Proof.Machine

/-! ## Memory -/

/-- The byte a list of cells holds for an address, if it lists one. -/
def lookupCell : List Host.Cell → Nat → Option Byte
  | [], _ => none
  | cell :: rest, a => if a = cell.1 then some cell.2 else lookupCell rest a

/-- The byte of the font table at offset `k` of its 80: glyph `k div 5`, row `k mod 5` (R23). -/
def fontByte (glyphs : Vector (Vector Byte 5) 16) (k : Fin 80) : Byte :=
  (glyphs[k.val / 5]'(by omega))[k.val % 5]'(by omega)

/-- What an address that `State.mem` does not list reads as: the reset contents of memory, which are the font table
at FONT_BASE and INIT_MEM elsewhere (R20, R28, R222; notes/assumptions/3). -/
def resetByte (cfg : Config) (a : Nat) : Byte :=
  if h : cfg.fontBase ≤ a ∧ a < cfg.fontBase + 80 then
    fontByte cfg.fontGlyphs ⟨a - cfg.fontBase, by omega⟩
  else (lookupCell cfg.initMem a).getD 0

/-- Reading one byte. -/
def Memory.read (cfg : Config) (m : Memory) (a : Nat) : Byte :=
  (lookupCell m a).getD (resetByte cfg a)

/-- Listing a byte at its place in the rising order. -/
def insertCell (a : Nat) (b : Byte) : List Host.Cell → List Host.Cell
  | [] => [(a, b)]
  | cell :: rest =>
    if a < cell.1 then (a, b) :: cell :: rest
    else if a = cell.1 then (a, b) :: rest
    else cell :: insertCell a b rest

/-- Listing nothing for an address. -/
def eraseCell (a : Nat) : List Host.Cell → List Host.Cell
  | [] => []
  | cell :: rest => if a = cell.1 then eraseCell a rest else cell :: eraseCell a rest

/-- Writing one byte (R47: "a write changes exactly the addressed byte"). The canonical form is kept: a byte equal
to what an unlisted address reads as is not listed. An address outside the address space has no byte to write; no
meaning asks for one (R43; notes/assumptions/30). -/
def Memory.write (cfg : Config) (m : Memory) (a : Nat) (b : Byte) : Memory :=
  if a < memSize then
    if b = resetByte cfg a then eraseCell a m else insertCell a b m
  else m

/-- The canonical form: addresses strictly rising and inside the address space, no entry equal to what an unlisted
address reads as. -/
abbrev Memory.wf (cfg : Config) (m : Memory) : Prop :=
  m.Pairwise (fun c d => c.1 < d.1) ∧ ∀ c ∈ m, c.1 < memSize ∧ c.2 ≠ resetByte cfg c.1

/-- `mem[a]` (R20). -/
def State.readByte (s : State) (a : Nat) : Byte := Memory.read s.cfg s.mem a

/-- `mem[a] <- b` (R20, R47). -/
def State.writeByte (s : State) (a : Nat) (b : Byte) : State :=
  { s with mem := Memory.write s.cfg s.mem a b }

/-- The bytes `mem[a]` to `mem[a+n-1]`, lowest address first (R7 MemRead, R42). -/
def State.readBlock (s : State) (a n : Nat) : List Byte :=
  (List.range n).map fun k => s.readByte (a + k)

/-- Writing bytes at `a`, `a+1`, …, lowest address first (R7 MemWrite, R42). -/
def State.writeBlock (s : State) (a : Nat) : List Byte → State
  | [] => s
  | b :: bs => (s.writeByte a b).writeBlock (a + 1) bs

/-- Whether an access to the `n` bytes at `a` raises `MemoryProtectionFault`: the whole range is checked before the
instruction changes anything, upward against 0xFFF (R43) and downward against the first address the instruction may
touch, `lowest` (R44: 0x200 for LD B, LD [I], LD Vx,[I]; 0 for DRW). Sums are natural numbers and never wrap
(decisions D8 to D10; DESIGN CHOICE, safe, notes/assumptions/19). -/
def blockFaults (lowest a n : Nat) : Bool :=
  n ≠ 0 && (a < lowest || a + n - 1 > 0xFFF)

/-! ## Registers -/

/-- `V[x]` (R7, R11). -/
def State.reg (s : State) (x : Nibble) : Byte := s.v[x.toNat]'x.isLt

/-- `V[x] <- b` (R7, R11): no register is hardwired. -/
def State.setReg (s : State) (x : Nibble) (b : Byte) : State :=
  { s with v := s.v.set x.toNat b x.isLt }

/-- `V[0]` to `V[n-1]`, in order. -/
def State.regsBelow (s : State) (n : Nat) : List Byte :=
  (List.range n).map fun k => s.reg (BitVec.ofNat 4 k)

/-- Writing bytes to `V[k]`, `V[k+1]`, …, in order. -/
def State.setRegsFrom (s : State) (k : Nat) : List Byte → State
  | [] => s
  | b :: bs => (s.setReg (BitVec.ofNat 4 k) b).setRegsFrom (k + 1) bs

/-- `I <- a` (R13). -/
def State.setI (s : State) (a : Word) : State := { s with i := a }

/-- `pc <- target` (R7, R14). -/
def State.setPc (s : State) (target : Word) : State := { s with pc := target }

/-- `DT <- b` (R17). -/
def State.setDt (s : State) (b : Byte) : State := { s with dt := b }

/-- `ST <- b` (R18). -/
def State.setSt (s : State) (b : Byte) : State := { s with st := b }

/-- `key <- k` (R21). -/
def State.setKey (s : State) (k : Option Nibble) : State := { s with key := k }

/-- `skip`: `pc <- trunc_16(pc + 2)`, on top of the advance already done by fetch (R7, R100). The fetch advance
itself is the same addition (R84). -/
def State.skip (s : State) : State := s.setPc (s.pc + 2)

/-- `pc <- trunc_16(pc - 2)`, back to the instruction's own address (R175). -/
def State.rewind (s : State) : State := s.setPc (s.pc - 2)

/-! ## The call stack -/

/-- CALL's push (R104): `stack[depth] <- ret`, then `depth <- depth + 1`; none when the stack is full. -/
def State.push (s : State) (ret : Word) : Option State :=
  if h : s.depth.val < 16 then
    some { s with stack := s.stack.set s.depth.val ret h, depth := ⟨s.depth.val + 1, by omega⟩ }
  else none

/-- RET's pop (R101): `depth <- depth - 1`, then the slot at the new depth, whose content stays (R15); none when the
stack is empty. -/
def State.pop (s : State) : Option (Word × State) :=
  if h : s.depth.val = 0 then none
  else some (s.stack[s.depth.val - 1]'(by omega), { s with depth := ⟨s.depth.val - 1, by omega⟩ })

/-! ## The framebuffer -/

/-- `fb[r][c]` (R22). -/
def Framebuffer.pixel (f : Framebuffer) (r : Fin 32) (c : Fin 64) : Bool := f[r.val][c.val]

/-- `fb[r][c] <- p` (R22). -/
def Framebuffer.setPixel (f : Framebuffer) (r : Fin 32) (c : Fin 64) (p : Bool) : Framebuffer :=
  f.set r.val (f[r.val].set c.val p)

/-- Every pixel erased (R161). -/
def Framebuffer.blank : Framebuffer := Vector.replicate 32 (Vector.replicate 64 false)

/-- `fb[r][c]` of the state (R22). -/
def State.pixel (s : State) (r : Fin 32) (c : Fin 64) : Bool := s.fb.pixel r c

/-- Replacing the framebuffer. -/
def State.setFb (s : State) (f : Framebuffer) : State := { s with fb := f }

/-! ## Raising a fault -/

/-- Latching a fault kind (R25). -/
def State.setFault (s : State) (f : Fault) : State := { s with fault := some f }

/-- `raise F`: the machine's trap entry, the same for every fault (R193). The step ends with the kind in the latch
and every other state element as it stands: before the fetch that is the state before the step, in the execute phase
it is that state with `pc` advanced. There is no handler, no saved register and no return (R195); only RESET clears
the latch (R194). DESIGN CHOICE (decisions D11, D12), unsafe for claims about the state after a fault:
notes/assumptions/20, notes/assumptions/21. -/
def raise (f : Fault) (s : State) : Host.Outcome State Fault Refusal := .next (s.setFault f)

end Sys2Proof.Machine
end

