-- ==== Sys2Proof/Machine/Operands.lean ====
section
/-! DEFINITION. The operand forms of spec/30_encoding.md R63: absolute addresses, absolute plus V0, through `I` with
an implicit offset, the shifts' source, the glyph address, decimal digits and the key match. -/

namespace Sys2Proof.Machine

/-- `zext_16(nnn)`: an absolute address (R63). -/
def absoluteAddr (nnn : Addr) : Word := nnn.setWidth 16

/-- `trunc_16(zext_16(nnn) + zext_16(V[0]))`: absolute plus V0 (R63, R109). It is not reduced modulo 4096
(decision D24; DESIGN CHOICE, notes/assumptions/25). -/
def indexedTarget (s : State) (nnn : Addr) : Word := absoluteAddr nnn + (s.reg 0).setWidth 16

/-- `trunc_16(I + zext_16(V[x]))` (R142, decision D24; DESIGN CHOICE, unsafe above 0xFFF, notes/assumptions/25). -/
def indexPlusReg (s : State) (x : Nibble) : Word := s.i + (s.reg x).setWidth 16

/-- `trunc_16(FONT_BASE + 5 * zext_16(V[x]))`, on all 8 bits of the register (R143, decision D16; DESIGN
CHOICE, unsafe above 15, notes/assumptions/24). -/
def glyphAddr (s : State) (x : Nibble) : Word :=
  BitVec.ofNat 16 (s.cfg.fontBase + 5 * (s.reg x).toNat)

/-- The register a shift shifts: `V[y]` if SHIFT_USES_VY, else `V[x]` (R129, R131). -/
def shiftOperand (s : State) (x y : Nibble) : Byte :=
  if s.cfg.shiftUsesVy then s.reg y else s.reg x

/-- The address in `I` as a natural number; an effective address is this plus an offset, without wrap (R140). -/
def indexAddr (s : State) : Nat := s.i.toNat

/-- How many registers a bulk transfer moves: `x` is the inclusive upper index (R63, R145, R146). -/
def bulkCount (x : Nibble) : Nat := x.toNat + 1

/-- The three decimal digits, hundreds first (R144). -/
def decimalDigits (b : Byte) : List Byte :=
  [BitVec.ofNat 8 (b.toNat / 100), BitVec.ofNat 8 (b.toNat / 10 % 10), BitVec.ofNat 8 (b.toNat % 10)]

/-- `match(x) = (key = some(k) and zext_8(k) = V[x])`, on all 8 bits of `V[x]` (R170, decision D15; DESIGN
CHOICE, unsafe above 15, notes/assumptions/23). -/
def keyMatches (s : State) (x : Nibble) : Bool :=
  match s.key with
  | none => false
  | some k => k.setWidth 8 == s.reg x

end Sys2Proof.Machine
end

