-- ==== Sys2Proof/Machine/ControlFlow.lean ====
section
/-! DEFINITION. Control flow (spec/41_control_flow.md). A meaning runs on the state whose `pc` the fetch has already
advanced by 2 (R7, R84; notes/assumptions/37). -/

namespace Sys2Proof.Machine

/-- The conditional skip of R100: the skipped word is not looked at. -/
def skipIf (cond : Bool) (s : State) : State := if cond then s.skip else s

/-- RET (R101). The popped value is not range-checked here. -/
def execRet (s : State) : Host.Outcome State Fault Refusal :=
  match s.pop with
  | none => raise .stack s
  | some (ret, s') => .next (s'.setPc ret)

/-- EXIT (R102): the counter becomes the halt sentinel; no fault. -/
def execExit (s : State) : Host.Outcome State Fault Refusal := .next (s.setPc 0)

/-- JP nnn (R103): any target is accepted. -/
def execJp (nnn : Addr) (s : State) : Host.Outcome State Fault Refusal := .next (s.setPc (absoluteAddr nnn))

/-- CALL nnn (R104): pushes the already advanced counter. -/
def execCall (nnn : Addr) (s : State) : Host.Outcome State Fault Refusal :=
  match s.push s.pc with
  | none => raise .stack s
  | some s' => .next (s'.setPc (absoluteAddr nnn))

/-- SE Vx,kk (R105). -/
def execSeImm (x : Nibble) (kk : Byte) (s : State) : Host.Outcome State Fault Refusal :=
  .next (skipIf (s.reg x == kk) s)

/-- SNE Vx,kk (R106). -/
def execSneImm (x : Nibble) (kk : Byte) (s : State) : Host.Outcome State Fault Refusal :=
  .next (skipIf (s.reg x != kk) s)

/-- SE Vx,Vy (R107). -/
def execSeReg (x y : Nibble) (s : State) : Host.Outcome State Fault Refusal :=
  .next (skipIf (s.reg x == s.reg y) s)

/-- SNE Vx,Vy (R108). -/
def execSneReg (x y : Nibble) (s : State) : Host.Outcome State Fault Refusal :=
  .next (skipIf (s.reg x != s.reg y) s)

/-- JP V0,nnn (R109): the sum is not reduced modulo 4096. -/
def execJpV0 (nnn : Addr) (s : State) : Host.Outcome State Fault Refusal := .next (s.setPc (indexedTarget s nnn))

end Sys2Proof.Machine
end

