-- ==== Sys2Proof/Machine/Flags.lean ====
section
/-! DEFINITION. Every flag computation (spec/42_load_alu.md R132, spec/44_display.md R163) and the one order in which a
result and its flag are written (R120). The machine's only flag is VF (R12). -/

namespace Sys2Proof.Machine

/-- VF's register index (R12). -/
def flagReg : Nibble := 0xF

/-- A flag as the full byte 0x00 or 0x01 (R120). -/
def flagByte (f : Bool) : Byte := if f then 1 else 0

/-- ADD's flag: the unsigned sum exceeds 255 (R127). -/
def carryFlag (a b : Byte) : Bool := a.toNat + b.toNat > 255

/-- SUB's and SUBN's flag: `minuend >= subtrahend`, no borrow (R128, R130). -/
def noBorrowFlag (minuend subtrahend : Byte) : Bool := minuend.toNat ≥ subtrahend.toNat

/-- SHR's flag: the pre-shift bit 0 (R129). -/
def lowBitFlag (b : Byte) : Bool := b.getLsbD 0

/-- SHL's flag: the pre-shift bit 7 (R131). -/
def highBitFlag (b : Byte) : Bool := b.getLsbD 7

/-- R120: `V[x] <- r`, then `V[0xF] <- f` last, so with `x = 0xF` the flag stays (decision D6; DESIGN
CHOICE, unsafe when VF is an operand, notes/assumptions/18). -/
def writeResultAndFlag (s : State) (x : Nibble) (r : Byte) (f : Bool) : State :=
  (s.setReg x r).setReg flagReg (flagByte f)

/-- What a colliding draw writes to VF, by DRAW_FLAG_MODE (R163 (3)). -/
def collisionValue (mode : DrawFlagMode) (vf : Byte) : Byte :=
  match mode with
  | .orAccumulate => vf ||| 1
  | .setOne => 1

/-- DRW's flag: VF is written on a collision and left alone without one (R163 (2)). -/
def writeCollision (s : State) (collision : Bool) : State :=
  if collision then s.setReg flagReg (collisionValue s.cfg.drawFlagMode (s.reg flagReg)) else s

end Sys2Proof.Machine
end

