-- ==== Sys2Proof/Machine/Display.lean ====
section
/-! DEFINITION. Display instructions (spec/44_display.md): the framebuffer clear and the sprite blitter. -/

namespace Sys2Proof.Machine

/-- The blitter's running result: the framebuffer so far, and whether a collision was seen (R162). -/
structure Blit where
  fb : Framebuffer
  collision : Bool
  deriving DecidableEq, Repr

/-- A row number reduced modulo H = 32 (R160). -/
def wrapRow (r : Nat) : Fin 32 := ⟨r % 32, Nat.mod_lt _ (by decide)⟩

/-- A column number reduced modulo W = 64 (R160). -/
def wrapColumn (c : Nat) : Fin 64 := ⟨c % 64, Nat.mod_lt _ (by decide)⟩

/-- One pixel of the blit: the collision test on the old pixel, then XOR (R162). -/
def Blit.drawPixel (acc : Blit) (bit : Bool) (r : Fin 32) (c : Fin 64) : Blit where
  fb := acc.fb.setPixel r c (acc.fb.pixel r c ^^ bit)
  collision := acc.collision || (bit && acc.fb.pixel r c)

/-- One sprite row, most significant bit first, each column wrapped on its own (R162, R164). -/
def Blit.drawRow (acc : Blit) (row : Byte) (cx : Nat) (r : Fin 32) : Blit :=
  (List.range 8).foldl (fun a j => a.drawPixel (row.getLsbD (7 - j)) r (wrapColumn (cx + j))) acc

/-- The sprite's rows from row number `cy` on, each row wrapped on its own (R160, R162). -/
def Blit.drawRows (acc : Blit) (cx cy : Nat) : List Byte → Blit
  | [] => acc
  | row :: rows => (acc.drawRow row cx (wrapRow cy)).drawRows cx (cy + 1) rows

/-- CLS (R161): every pixel erased; no register is touched. -/
def execCls (s : State) : Host.Outcome State Fault Refusal := .next (s.setFb Framebuffer.blank)

/-- DRW's effect once its sprite bytes are readable (R162): the coordinates and all sprite bytes are read before any
write (decision D14; DESIGN CHOICE, unsafe with VF as a coordinate, notes/assumptions/22); VF by R163. -/
def drawSprite (x y n : Nibble) (s : State) : State :=
  let blit := Blit.drawRows ⟨s.fb, false⟩ (s.reg x).toNat (s.reg y).toNat (s.readBlock (indexAddr s) n.toNat)
  writeCollision (s.setFb blit.fb) blit.collision

/-- DRW Vx,Vy,n (R162): the fault if a sprite byte lies above 0xFFF; `n = 0` reads and draws nothing. -/
def execDrw (x y n : Nibble) (s : State) : Host.Outcome State Fault Refusal :=
  if blockFaults 0 (indexAddr s) n.toNat then raise .memoryProtection s
  else .next (drawSprite x y n s)

end Sys2Proof.Machine
end

