-- ==== Sys2Proof/Machine/IndexMemory.lean ====
section
/-! DEFINITION. Index-register and memory instructions (spec/43_index_memory.md). None of them writes VF as a flag,
and no transfer changes `I` (R140, R147). -/

namespace Sys2Proof.Machine

/-- LD I,nnn (R141). -/
def execLdI (nnn : Addr) (s : State) : Host.Outcome State Fault Refusal := .next (s.setI (absoluteAddr nnn))

/-- ADD I,Vx (R142): wraps modulo 65536, no flag. -/
def execAddI (x : Nibble) (s : State) : Host.Outcome State Fault Refusal := .next (s.setI (indexPlusReg s x))

/-- LD F,Vx (R143). -/
def execLdF (x : Nibble) (s : State) : Host.Outcome State Fault Refusal := .next (s.setI (glyphAddr s x))

/-- LD B,Vx (R144): three digits at `I`, or the fault with no byte written. -/
def execLdB (x : Nibble) (s : State) : Host.Outcome State Fault Refusal :=
  if blockFaults progBase (indexAddr s) 3 then raise .memoryProtection s
  else .next (s.writeBlock (indexAddr s) (decimalDigits (s.reg x)))

/-- LD [I],Vx (R145): `V[0]` to `V[x]` at `I`, or the fault with no byte written. -/
def execStoreRegs (x : Nibble) (s : State) : Host.Outcome State Fault Refusal :=
  if blockFaults progBase (indexAddr s) (bulkCount x) then raise .memoryProtection s
  else .next (s.writeBlock (indexAddr s) (s.regsBelow (bulkCount x)))

/-- LD Vx,[I] (R146): all reads first, then `V[0]` to `V[x]`; or the fault with no register written. -/
def execLoadRegs (x : Nibble) (s : State) : Host.Outcome State Fault Refusal :=
  if blockFaults progBase (indexAddr s) (bulkCount x) then raise .memoryProtection s
  else .next (s.setRegsFrom 0 (s.readBlock (indexAddr s) (bulkCount x)))

end Sys2Proof.Machine
end

