-- ==== Sys2Proof/Machine/KeysTimersRandom.lean ====
section
/-! DEFINITION. Key, timer and random instructions (spec/45_keys_timers_random.md). None of them can fault. -/

namespace Sys2Proof.Machine

/-- RND Vx,kk (R171): the byte is the step's input, a draw under no law. -/
def execRnd (x : Nibble) (kk : Byte) (s : State) : Host.Outcome State Fault Refusal :=
  .next (s.setReg x (s.input.rnd &&& kk))

/-- SKP Vx (R172): skips and consumes the latch on a match; otherwise nothing. -/
def execSkp (x : Nibble) (s : State) : Host.Outcome State Fault Refusal :=
  .next (if keyMatches s x then s.skip.setKey none else s)

/-- SKNP Vx (R173): consumes the latch on a match without skipping; otherwise skips. -/
def execSknp (x : Nibble) (s : State) : Host.Outcome State Fault Refusal :=
  .next (if keyMatches s x then s.setKey none else s.skip)

/-- LD Vx,DT (R174): the timer before this step's timer sync. -/
def execLdVxDt (x : Nibble) (s : State) : Host.Outcome State Fault Refusal := .next (s.setReg x s.dt)

/-- LD Vx,K (R175): with no key the counter is rewound to this instruction; otherwise the key is copied and consumed. -/
def execLdVxK (x : Nibble) (s : State) : Host.Outcome State Fault Refusal :=
  .next (match s.key with
    | none => s.rewind
    | some k => (s.setReg x (k.setWidth 8)).setKey none)

/-- LD DT,Vx (R176). -/
def execLdDtVx (x : Nibble) (s : State) : Host.Outcome State Fault Refusal := .next (s.setDt (s.reg x))

/-- LD ST,Vx (R177). -/
def execLdStVx (x : Nibble) (s : State) : Host.Outcome State Fault Refusal := .next (s.setSt (s.reg x))

end Sys2Proof.Machine
end

