-- ==== Sys2Proof/Machine/Sequencer.lean ====
section
/-! DEFINITION. The single-step operation, phase by phase (spec/40_step_cycle.md R82 to R88). -/

namespace Sys2Proof.Machine

/-- R83: a step may start only with `pc` in [0x200, 0xFFF] (decisions D26, D31; DESIGN CHOICE, safe,
notes/assumptions/27). -/
def pcInRange (s : State) : Bool := progBase ≤ s.pc.toNat && s.pc.toNat ≤ 0xFFF

/-- R84: the second byte of the fetch lies inside the address space (it does not only when `pc = 0xFFF`). -/
def fetchInRange (s : State) : Bool := s.pc.toNat + 1 ≤ 0xFFF

/-- The two bytes at `pc` (R84, R42). -/
def fetchBytes (s : State) : List Byte := s.readBlock s.pc.toNat 2

/-- The fetch's advance of the counter, before executing (R84). -/
def advance (s : State) : State := s.setPc (s.pc + 2)

/-- Whether the timers are due: `now - t_last >= 1/60` (R86), cross-multiplied so that it evaluates on numerals
(`tickDue_iff` in Laws/Sequencer.lean is the rule's own form). -/
def tickDue (now last : Rat) : Bool :=
  decide (((now.den * last.den : Nat) : Int) ≤ 60 * (now.num * last.den - last.num * now.den))

/-- One timer at the sync: decremented by 1 if due and not zero (R86; "floor at 0"). -/
def tickTimer (due : Bool) (t : Byte) : Byte :=
  if t = 0 then 0 else if due then t - 1 else t

/-- Phase 4, the timer sync (R86): at most one decrement, and the timestamp becomes `now`. -/
def timerSync (s : State) : State :=
  { s with
    dt := tickTimer (tickDue s.input.now s.tLast) s.dt
    st := tickTimer (tickDue s.input.now s.tLast) s.st
    tLast := if tickDue s.input.now s.tLast then s.input.now else s.tLast }

/-- The end of a step: the timer sync runs unless the instruction raised a fault (R86 (e), (f), decision D33;
DESIGN CHOICE, notes/assumptions/28). -/
def finishStep : Host.Outcome State Fault Refusal → Host.Outcome State Fault Refusal
  | .next s => .next (if s.fault.isSome then s else timerSync s)
  | .fault f => .fault f
  | .refused r => .refused r

/-- Phases 3 and 4 (R85, R86): `s` is the state after the fetch's advance and `bytes` what the fetch read. -/
def dispatch (s : State) (bytes : List Byte) : Host.Outcome State Fault Refusal :=
  match decodeBytes s.cfg.exitWord bytes with
  | .error _ => raise .decode s
  | .ok (i, _) => finishStep (exec i s)

/-- Taking the inputs of a STEP (R81). -/
def State.accept (s : State) (inp : StepInput) : State := { s with input := inp }

/-- `STEP(now, rnd)` (R88). The result of the step is the fault latch of the state it leaves: none is `ok` (R87). -/
def stepWith (inp : StepInput) (s : State) : Host.Outcome State Fault Refusal :=
  if s.fault.isSome then .next s
  else if !pcInRange s then raise .memoryProtection s
  else if !fetchInRange s then raise .memoryProtection s
  else dispatch (advance (s.accept inp)) (fetchBytes s)

/-- The inputs that the environment draws for the next STEP (R81): any byte, and any time that is "never less than
any earlier `now` and never less than the reset time" since the last RESET (`s.input.now` is the later of the
two). A RESET may be performed at a time before an earlier STEP's, and a step after it may then draw a `now` below that
STEP's (DESIGN CHOICE, safe, notes/assumptions/40). -/
def drawInput (s : State) : StepInput :=
  { now := max s.input.now (Config.freeNow s.draws), rnd := Config.freeRnd s.draws }

/-- The latch that the next STEP finds (R89): the last value that the host wrote, or what the last step left where
the host wrote nothing. -/
def drawKey (s : State) : Option Nibble := (Config.freeKey s.draws).getD s.key

/-- What the host does between two STEPs (R80, R89): it may write the latch, and nothing else. The draws for the next
STEP are then made. -/
def hostActs (s : State) : State := { s with key := drawKey s, draws := s.draws + 1 }

end Sys2Proof.Machine
end

