-- ==== Sys2Proof/Machine/Step.lean ====
section
/-! DEFINITION. The step the host's interface asks for: STEP with the environment's draws. -/

namespace Sys2Proof.Machine

/-- One STEP (R88) after whatever the host does to the latch before it (R89), with free `now` and `rnd` (R81). -/
def step (s : State) : Host.Outcome State Fault Refusal := stepWith (drawInput s) (hostActs s)

/-- `s` with an instruction word stored at `pc` and `pc + 1`, high byte first (R42); it stands for LOAD
(spec/70_reset_and_hazards.md R225; notes/assumptions/13). Every instruction is one word, so `nbits` is 16 and a
shorter one leaves the bits above it zero. -/
def State.withFetchWord (s : State) (nbits w : Nat) : State :=
  s.writeBlock s.pc.toNat (bytesOfWord (BitVec.ofNat 16 (w % 2 ^ nbits)))

end Sys2Proof.Machine
end

