-- ==== Sys2Proof/Machine/HostPort.lean ====
section
/-! DEFINITION. The host's transactions (spec/40_step_cycle.md R80): RESET, LOAD, SETKEY, STEP and what the host
observes between steps. -/

namespace Sys2Proof.Machine

/-- RESET at time `now` (spec/70_reset_and_hazards.md R220): every element takes its reset value, from any state. The
configuration is not state (R26), and the environment's draws are not replayed (notes/assumptions/7). -/
def resetTransaction (now : Rat) (s : State) : State := State.resetAt s.cfg now s.draws

/-- LOAD(image) (R225, R226): the bytes in order from 0x200 on; an image that does not fit has no meaning
(DESIGN CHOICE, safe, notes/assumptions/14). -/
def loadTransaction (image : List Byte) (s : State) : Host.Outcome State Fault Refusal :=
  if image.length ≤ maxImage then .next (s.writeBlock progBase image) else .refused .imageTooLong

/-- The transactions that change state (R80). -/
inductive Transaction where
  /-- RESET, performed at time `now`. -/
  | reset (now : Rat)
  /-- LOAD(image). -/
  | load (image : List Byte)
  /-- SETKEY(v). -/
  | setKey (v : Option Nibble)
  /-- STEP(now, rnd). -/
  | step (inp : StepInput)
  deriving DecidableEq, Repr

/-- One transaction of the host (R80, R89). -/
def transact (t : Transaction) (s : State) : Host.Outcome State Fault Refusal :=
  match t with
  | .reset now => .next (resetTransaction now s)
  | .load image => loadTransaction image s
  | .setKey v => .next (s.setKey v)
  | .step inp => stepWith inp s

/-- A sequence of transactions, stopping at the first one without a meaning. -/
def transactAll : List Transaction → State → Host.Outcome State Fault Refusal
  | [], s => .next s
  | t :: ts, s =>
    match transact t s with
    | .next s' => transactAll ts s'
    | .fault f => .fault f
    | .refused r => .refused r

/-- `halted = (pc = 0)`, a derived signal (R29). -/
def State.halted (s : State) : Bool := s.pc == 0

/-- The numeric code of the fault latch (R190, decision D20; DESIGN CHOICE, safe, notes/assumptions/34). -/
def faultCode : Option Fault → Nat
  | none => 0
  | some .memoryProtection => 1
  | some .stack => 2
  | some .decode => 3

/-- What the host reads between steps (R80 observe, R211): the framebuffer, `halted` and the fault latch. -/
structure Observation where
  fb : Framebuffer
  halted : Bool
  fault : Option Fault
  deriving DecidableEq, Repr

/-- The observe transaction (R80); it changes nothing. -/
def State.observe (s : State) : Observation := { fb := s.fb, halted := s.halted, fault := s.fault }

end Sys2Proof.Machine
end

