-- ==== Sys2Proof/Machine/Run.lean ====
section
/-! DEFINITION. Runs: the order and the times that the spec gives the host's transactions (spec/40_step_cycle.md R80,
R81, R93, spec/70_reset_and_hazards.md R225, R228), and where and how a run ends (R93). -/

namespace Sys2Proof.Machine

/-! ## The host's contract -/

/-- How far the host has come with the machine (R80, R225). -/
inductive HostPhase where
  /-- No RESET yet. -/
  | off
  /-- RESET is done, the one LOAD is due. -/
  | afterReset
  /-- LOAD is done: "STEP transactions interleaved with SETKEY" (R93). -/
  | running
  deriving DecidableEq, Repr

/-- The phase after a transaction, if the transaction is in order there. RESET always is (R220); LOAD is issued "once,
after RESET and before the first STEP" (R80), with an image that fits (R226). -/
def HostPhase.after : HostPhase → Transaction → Option HostPhase
  | _, .reset _ => some .afterReset
  | .afterReset, .load image => if image.length ≤ maxImage then some .running else none
  | .running, .setKey _ => some .running
  | .running, .step _ => some .running
  | _, _ => none

/-- A sequence in the host's order, from a phase on. -/
def inOrderFrom : HostPhase → List Transaction → Bool
  | _, [] => true
  | p, t :: ts =>
    match p.after t with
    | some q => inOrderFrom q ts
    | none => false

/-- A sequence in the host's order, from the start on: RESET, LOAD, STEP and SETKEY, then possibly RESET again
(notes/assumptions/15). -/
def inOrder (ts : List Transaction) : Bool := inOrderFrom .off ts

/-- The monotonicity of R81: the `now` of every STEP is "never less than any earlier `now` and never less than the
reset time". `last` is the latest of those so far. The time of a RESET itself is not bounded by earlier ones, which the
spec leaves open, and the bound on later STEPs is kept across it (DESIGN CHOICE, safe, notes/assumptions/40). -/
def timesFrom (last : Rat) : List Transaction → Bool
  | [] => true
  | .reset now :: ts => timesFrom (max last now) ts
  | .step inp :: ts => decide (last ≤ inp.now) && timesFrom inp.now ts
  | .load _ :: ts => timesFrom last ts
  | .setKey _ :: ts => timesFrom last ts

/-- R81's monotonicity of a whole sequence, whose clock starts with its first RESET. -/
def monotonic : List Transaction → Bool
  | .reset now :: ts => timesFrom now ts
  | _ => true

/-- A transaction of the running phase. -/
def Transaction.isStepOrKey : Transaction → Bool
  | .step _ => true
  | .setKey _ => true
  | .reset _ => false
  | .load _ => false

/-- "A run is: RESET, LOAD, then STEP transactions interleaved with SETKEY" (R93), with an image that fits (R226) and
monotonic times (R81). -/
def isRun : List Transaction → Bool
  | .reset now :: .load image :: ts =>
    decide (image.length ≤ maxImage) && ts.all Transaction.isStepOrKey && timesFrom now ts
  | _ => false

/-! ## The end of a run -/

/-- `halted` is true or `fault != none` (R93). -/
def State.runOver (s : State) : Bool := s.halted || s.fault.isSome

/-- The duty of R228: every STEP is invoked only while `halted` is false and `fault = none`. -/
def stepsOnlyWhileRunning : List Transaction → State → Bool
  | [], _ => true
  | t :: ts, s =>
    (match t with
      | .step _ => !s.runOver
      | _ => true) &&
    match transact t s with
    | .next s' => stepsOnlyWhileRunning ts s'
    | _ => true

/-- "The run is over at the first state, observed between steps, in which `halted` is true or `fault != none`"
(R93): that state, if there is one among `s` and the states that the transactions lead to. -/
def firstOver : List Transaction → State → Option State
  | [], s => if s.runOver then some s else none
  | t :: ts, s =>
    if s.runOver then some s
    else match transact t s with
      | .next s' => firstOver ts s'
      | _ => none

/-- The two ends of a run (R93). -/
inductive RunEnd where
  | normally
  | inFault
  deriving DecidableEq, Repr

/-- How a run ends whose first over state is `s`: "normally iff `halted` is true and `fault = none`; it ends in a
fault otherwise" (R93). -/
def State.howEnded (s : State) : RunEnd := if s.halted && s.fault.isNone then .normally else .inFault

/-- How the run `ts`, begun in any state, ends; none where it is no run, or does not end within `ts` (R93). The state
before RESET is not a state of the run. -/
def endOfRun (ts : List Transaction) (s : State) : Option RunEnd :=
  match ts with
  | .reset now :: rest =>
    if isRun ts then (firstOver rest (resetTransaction now s)).map State.howEnded else none
  | _ => none

/-- The first over state among `s` and the states of the next `n` steps of the machine with free draws (R93). -/
def firstOverWithin : Nat → State → Option State
  | 0, s => if s.runOver then some s else none
  | n + 1, s =>
    if s.runOver then some s
    else match step s with
      | .next s' => firstOverWithin n s'
      | _ => none

end Sys2Proof.Machine
end

