-- ==== Sys2Proof/Safety.lean ====
section
/-! DEFINITION. The terms in which statements speak: the parts of a state, what a step leaves unchanged, and the
machine's invariant. -/

namespace Sys2Proof.Machine

/-- Every readable part of a state: the elements of spec/10_state.md R10, register by register, byte by byte and
pixel by pixel, and the model's own three fields. -/
inductive Part where
  | reg (x : Nibble)
  | i
  | pc
  | slot (k : Fin 16)
  | depth
  | dt
  | st
  | tLast
  | byte (a : Nat)
  | key
  | pixel (r : Fin 32) (c : Fin 64)
  | fault
  | cfg
  | input
  | draws
  deriving DecidableEq, Repr

/-- A part has the same value in both states; a byte of memory is compared through the model's read of it. -/
def sameAt (s t : State) : Part → Prop
  | .reg x => t.reg x = s.reg x
  | .i => t.i = s.i
  | .pc => t.pc = s.pc
  | .slot k => t.stack[k.val] = s.stack[k.val]
  | .depth => t.depth = s.depth
  | .dt => t.dt = s.dt
  | .st => t.st = s.st
  | .tLast => t.tLast = s.tLast
  | .byte a => t.readByte a = s.readByte a
  | .key => t.key = s.key
  | .pixel r c => t.pixel r c = s.pixel r c
  | .fault => t.fault = s.fault
  | .cfg => t.cfg = s.cfg
  | .input => t.input = s.input
  | .draws => t.draws = s.draws

/-- The frame: every part outside `may` is the same in `t` as in `s`. -/
def changesOnly (may : Part → Prop) (s t : State) : Prop := ∀ p, ¬ may p → sameAt s t p

/-- The machine's invariant: memory in its canonical form, nothing listed in the reserved low region (R44: no step
changes `mem[0x000..0x1FF]`), and a configuration that meets the constraints of R5. -/
structure State.Inv (s : State) : Prop where
  memory : Memory.wf s.cfg s.mem
  lowRegion : ∀ cell ∈ s.mem, progBase ≤ cell.1
  config : s.cfg.wellFormed = true

/-- A step starts on the word `w`: no fault is latched, `pc` is in range for both bytes, and the two bytes at `pc`
are `w`, high byte first (R82 to R84). -/
structure State.Fetches (s : State) (w : Word) : Prop where
  noFault : s.fault = none
  low : 0x200 ≤ s.pc.toNat
  high : s.pc.toNat ≤ 0xFFE
  bytes : s.readByte s.pc.toNat ++ s.readByte (s.pc.toNat + 1) = w

end Sys2Proof.Machine
end

