-- ==== Sys2Proof/Certificates/Slice0/Obligations.lean ====
section
/-! DEFINITION. The statements for the provers. Each docstring names the rule of spec/ that the statement formalises;
where a clause rests on a decision of the spec's own or on a choice of the model, it says so. In every statement about
`exec`, `s` is the state whose `pc` the fetch has already advanced by 2 (R7), and `changesOnly` states the frame: every
register, every byte of memory (through the model's read of one byte), every pixel and every other part not named is
unchanged. -/

open Sys2Proof Sys2Proof.Machine

/-! ## Encoding -/

/-- The word of each row of R65 to R69 as a number, from its pattern: the family in bits 15 to 12, `x` in bits 11 to
8, `y` in bits 7 to 4, `nnn`, `kk` and `n` in the low 12, 8 and 4 bits, and the sub-selectors of families 8, E and F
(the spec's decision D1, PRESUMED, notes/assumptions/16). It uses nothing of the decoder or the encoder. -/
def opcodeMapWord (exitWord : Word) : Instr → Nat
  | .cls => 0x00E0
  | .ret => 0x00EE
  | .exit => exitWord.toNat
  | .jp nnn => 0x1000 + nnn.toNat
  | .call nnn => 0x2000 + nnn.toNat
  | .seImm x kk => 0x3000 + 0x100 * x.toNat + kk.toNat
  | .sneImm x kk => 0x4000 + 0x100 * x.toNat + kk.toNat
  | .seReg x y => 0x5000 + 0x100 * x.toNat + 0x10 * y.toNat
  | .ldImm x kk => 0x6000 + 0x100 * x.toNat + kk.toNat
  | .addImm x kk => 0x7000 + 0x100 * x.toNat + kk.toNat
  | .ldReg x y => 0x8000 + 0x100 * x.toNat + 0x10 * y.toNat
  | .orReg x y => 0x8000 + 0x100 * x.toNat + 0x10 * y.toNat + 0x1
  | .andReg x y => 0x8000 + 0x100 * x.toNat + 0x10 * y.toNat + 0x2
  | .xorReg x y => 0x8000 + 0x100 * x.toNat + 0x10 * y.toNat + 0x3
  | .addReg x y => 0x8000 + 0x100 * x.toNat + 0x10 * y.toNat + 0x4
  | .subReg x y => 0x8000 + 0x100 * x.toNat + 0x10 * y.toNat + 0x5
  | .shr x y => 0x8000 + 0x100 * x.toNat + 0x10 * y.toNat + 0x6
  | .subnReg x y => 0x8000 + 0x100 * x.toNat + 0x10 * y.toNat + 0x7
  | .shl x y => 0x8000 + 0x100 * x.toNat + 0x10 * y.toNat + 0xE
  | .sneReg x y => 0x9000 + 0x100 * x.toNat + 0x10 * y.toNat
  | .ldI nnn => 0xA000 + nnn.toNat
  | .jpV0 nnn => 0xB000 + nnn.toNat
  | .rnd x kk => 0xC000 + 0x100 * x.toNat + kk.toNat
  | .drw x y n => 0xD000 + 0x100 * x.toNat + 0x10 * y.toNat + n.toNat
  | .skp x => 0xE000 + 0x100 * x.toNat + 0x9E
  | .sknp x => 0xE000 + 0x100 * x.toNat + 0xA1
  | .ldVxDt x => 0xF000 + 0x100 * x.toNat + 0x07
  | .ldVxK x => 0xF000 + 0x100 * x.toNat + 0x0A
  | .ldDtVx x => 0xF000 + 0x100 * x.toNat + 0x15
  | .ldStVx x => 0xF000 + 0x100 * x.toNat + 0x18
  | .addI x => 0xF000 + 0x100 * x.toNat + 0x1E
  | .ldF x => 0xF000 + 0x100 * x.toNat + 0x29
  | .ldB x => 0xF000 + 0x100 * x.toNat + 0x33
  | .storeRegs x => 0xF000 + 0x100 * x.toNat + 0x55
  | .loadRegs x => 0xF000 + 0x100 * x.toNat + 0x65

/-- For every row of R65 to R69 and every operand, for every configuration that meets R5's constraints: the word of
that pattern decodes to its instruction, and it is the word that the encoder gives, so that decoding an encoded
instruction gives it back (R64; the numbers are the spec's decision D1, notes/assumptions/16). -/
def Obligations.EncodeThenDecodeReturnsTheInstruction : Prop :=
  ∀ (c : Config) (i : Instr), c.wellFormed = true → i.wellFormed = true →
    decodeWord c.exitWord (BitVec.ofNat 16 (opcodeMapWord c.exitWord i)) = .ok i ∧
    encode c.exitWord i = BitVec.ofNat 16 (opcodeMapWord c.exitWord i) ∧
    decodeWord c.exitWord (encode c.exitWord i) = .ok i

/-- A word that decodes is the word of the instruction it decodes to: "every pattern to one mnemonic form" (R73), for
every EXIT_WORD whatever. -/
def Obligations.DecodedWordsEncodeBack : Prop :=
  ∀ (exitWord w : Word) (i : Instr), decodeWord exitWord w = .ok i → encode exitWord i = w

/-- One word of each of the 35 rows, written out bit by bit from R65 to R69, at the default EXIT_WORD
(notes/assumptions/2). The numbers are the spec's decision D1, PRESUMED (notes/assumptions/16). A sanity statement; all
operands are `EncodeThenDecodeReturnsTheInstruction`'s. -/
def Obligations.SampleWordsDecodeToTheirInstructions : Prop :=
  decodeWord 0x00FD 0b0000000011100000 = .ok .cls ∧
  decodeWord 0x00FD 0b0000000011101110 = .ok .ret ∧
  decodeWord 0x00FD 0b0000000011111101 = .ok .exit ∧
  decodeWord 0x00FD 0b0001101010111100 = .ok (.jp 0xABC) ∧
  decodeWord 0x00FD 0b0010001000001010 = .ok (.call 0x20A) ∧
  decodeWord 0x00FD 0b0011000111111110 = .ok (.seImm 1 0xFE) ∧
  decodeWord 0x00FD 0b0100001000010001 = .ok (.sneImm 2 0x11) ∧
  decodeWord 0x00FD 0b0101001101000000 = .ok (.seReg 3 4) ∧
  decodeWord 0x00FD 0b0110000010011100 = .ok (.ldImm 0 0x9C) ∧
  decodeWord 0x00FD 0b0111111000000001 = .ok (.addImm 0xE 0x01) ∧
  decodeWord 0x00FD 0b1000111011110000 = .ok (.ldReg 0xE 0xF) ∧
  decodeWord 0x00FD 0b1000000100100001 = .ok (.orReg 1 2) ∧
  decodeWord 0x00FD 0b1000001000010010 = .ok (.andReg 2 1) ∧
  decodeWord 0x00FD 0b1000010001010011 = .ok (.xorReg 4 5) ∧
  decodeWord 0x00FD 0b1000000000010100 = .ok (.addReg 0 1) ∧
  decodeWord 0x00FD 0b1000011010000101 = .ok (.subReg 6 8) ∧
  decodeWord 0x00FD 0b1000001101110110 = .ok (.shr 3 7) ∧
  decodeWord 0x00FD 0b1000100110100111 = .ok (.subnReg 9 0xA) ∧
  decodeWord 0x00FD 0b1000101111001110 = .ok (.shl 0xB 0xC) ∧
  decodeWord 0x00FD 0b1001010101100000 = .ok (.sneReg 5 6) ∧
  decodeWord 0x00FD 0b1010001100000000 = .ok (.ldI 0x300) ∧
  decodeWord 0x00FD 0b1011111100001110 = .ok (.jpV0 0xF0E) ∧
  decodeWord 0x00FD 0b1100010100001111 = .ok (.rnd 5 0x0F) ∧
  decodeWord 0x00FD 0b1101000100100101 = .ok (.drw 1 2 5) ∧
  decodeWord 0x00FD 0b1110011110011110 = .ok (.skp 7) ∧
  decodeWord 0x00FD 0b1110100110100001 = .ok (.sknp 9) ∧
  decodeWord 0x00FD 0b1111000100000111 = .ok (.ldVxDt 1) ∧
  decodeWord 0x00FD 0b1111001100001010 = .ok (.ldVxK 3) ∧
  decodeWord 0x00FD 0b1111010000010101 = .ok (.ldDtVx 4) ∧
  decodeWord 0x00FD 0b1111011000011000 = .ok (.ldStVx 6) ∧
  decodeWord 0x00FD 0b1111111100011110 = .ok (.addI 0xF) ∧
  decodeWord 0x00FD 0b1111100000101001 = .ok (.ldF 8) ∧
  decodeWord 0x00FD 0b1111101100110011 = .ok (.ldB 0xB) ∧
  decodeWord 0x00FD 0b1111110101010101 = .ok (.storeRegs 0xD) ∧
  decodeWord 0x00FD 0b1111001001100101 = .ok (.loadRegs 2)

/-- The illegal words are exactly those of R70's table, for every configuration that meets R5's constraints (decisions
D1 and D7). The table's counts are not stated. -/
def Obligations.IllegalWordsAreThoseOfTheTable : Prop :=
  ∀ (c : Config) (w : Word), c.wellFormed = true →
    ((∃ e, decodeWord c.exitWord w = .error e) ↔
      (opField w = 0x0 ∧ w ≠ 0x00E0 ∧ w ≠ 0x00EE ∧ w ≠ c.exitWord) ∨
      (opField w = 0x5 ∧ nField w ≠ 0) ∨
      (opField w = 0x8 ∧ nField w ∈ [0x8, 0x9, 0xA, 0xB, 0xC, 0xD, 0xF]) ∨
      (opField w = 0x9 ∧ nField w ≠ 0) ∨
      (opField w = 0xE ∧ kkField w ∉ [0x9E, 0xA1]) ∨
      (opField w = 0xF ∧ kkField w ∉ [0x07, 0x0A, 0x15, 0x18, 0x1E, 0x29, 0x33, 0x55, 0x65]))

/-! ## Reset, load and the host -/

/-- RESET from any state, for any configuration, leaves the values of R28's table (its rows for the stack slots, the
latch, the framebuffer, INIT_MEM, `t_last` and the fault latch are decisions D19, D17 and D12). -/
def Obligations.ResetLeavesTheTableOfResetValues : Prop :=
  ∀ (s : State) (now : Rat), ∃ t, transact (.reset now) s = .next t ∧
    (∀ x, t.reg x = 0) ∧ t.i = 0 ∧ t.pc = 0x200 ∧ t.depth = 0 ∧ (∀ k : Fin 16, t.stack[k.val] = 0) ∧
    t.dt = 0 ∧ t.st = 0 ∧ t.tLast = now ∧ t.key = none ∧ (∀ r c, t.pixel r c = false) ∧ t.fault = none ∧
    t.halted = false ∧ t.cfg = s.cfg ∧
    (∀ (d : Fin 16) (r : Fin 5), t.readByte (s.cfg.fontBase + 5 * d.val + r.val) = s.cfg.fontGlyphs[d.val][r.val]) ∧
    (∀ a, a < s.cfg.fontBase ∨ s.cfg.fontBase + 80 ≤ a → t.readByte a = (lookupCell s.cfg.initMem a).getD 0)

/-- The invariant holds after RESET at any time, for every configuration that meets R5's constraints, and so at
`State.reset`. -/
def Obligations.ResetStateMeetsTheInvariant : Prop :=
  (∀ (cfg : Config) (now : Rat) (draws : Nat), cfg.wellFormed = true → (State.resetAt cfg now draws).Inv) ∧
  State.reset.Inv

/-- LOAD copies the bytes of an image that fits, in order, to 0x200 upward and changes nothing else (R225). -/
def Obligations.LoadPlacesTheImageFromProgBase : Prop :=
  ∀ (s : State) (image : List Byte), image.length ≤ 3584 →
    ∃ t, transact (.load image) s = .next t ∧
      (∀ (k : Nat) (h : k < image.length), t.readByte (0x200 + k) = image[k]) ∧
      changesOnly (fun p => ∃ k, k < image.length ∧ p = .byte (0x200 + k)) s t

/-- LOAD of an image longer than 3584 bytes is refused, and an image that fits is not (R226). -/
def Obligations.LoadRefusesExactlyTheImagesThatDoNotFit : Prop :=
  ∀ (s : State) (image : List Byte),
    (3584 < image.length → transact (.load image) s = .refused .imageTooLong) ∧
    (image.length ≤ 3584 → ∃ t, transact (.load image) s = .next t)

/-- SETKEY replaces the latch, whatever it held, and changes nothing else (R89, R233). -/
def Obligations.SetKeyReplacesTheLatch : Prop :=
  ∀ (s : State) (v : Option Nibble), ∃ t, transact (.setKey v) s = .next t ∧ t.key = v ∧
    changesOnly (fun p => p = .key) s t

/-- Once a fault is latched, no sequence of transactions without a RESET clears it or replaces its kind (R194,
decision D12). -/
def Obligations.FaultStaysLatchedUntilReset : Prop :=
  ∀ (ts : List Transaction) (s t : State) (f : Fault), s.fault = some f →
    (∀ now, Transaction.reset now ∉ ts) → transactAll ts s = .next t → t.fault = some f

/-! ## The step -/

/-- A step on a word that decodes to `i` runs `exec i` on the state with the inputs taken and `pc` advanced by 2, and
then, unless a fault was raised, the timer sync (R84 to R86, R88). It holds of STEP with any inputs, and so of `step`,
which is STEP after whatever the host does to the latch (R89), with free inputs: a time that is not before the last one,
and any byte (R81). -/
def Obligations.StepRunsTheDecodedInstruction : Prop :=
  ∀ (s : State) (w : Word) (i : Instr), s.Fetches w → decodeWord s.cfg.exitWord w = .ok i → i.wellFormed = true →
    (∀ inp, stepWith inp s =
      finishStep (exec i { s with pc := s.pc + 2, input := inp })) ∧
    step s = finishStep (exec i
      { s with
        pc := s.pc + 2
        key := (Config.freeKey s.draws).getD s.key
        input := { now := max s.input.now (Config.freeNow s.draws), rnd := Config.freeRnd s.draws }
        draws := s.draws + 1 }) ∧
    ∀ t, finishStep (.next t) = .next (if t.fault = none then timerSync t else t)

/-- STEP on a faulted machine changes nothing at all, whatever its inputs (R82, decision D12). So `step` there shows
only what the host may do before it: write the latch (R89), and have the model's own counter of draws move on. -/
def Obligations.FaultedMachineHoldsStill : Prop :=
  ∀ s : State, s.fault ≠ none →
    (∀ inp, stepWith inp s = .next s) ∧
    step s = .next { s with key := (Config.freeKey s.draws).getD s.key, draws := s.draws + 1 }

/-- With `pc` outside [0x200, 0xFFE] (the range check of R83, the second byte of R84, and so the halted value 0 of R90)
a step raises MemoryProtectionFault and changes nothing but the latch (R193 item 1; decisions D8, D11, D26, D31). -/
def Obligations.CounterOutOfRangeFaultsWithNothingChanged : Prop :=
  ∀ (s : State) (inp : StepInput), s.fault = none → (s.pc.toNat < 0x200 ∨ 0xFFE < s.pc.toNat) →
    ∃ t, stepWith inp s = .next t ∧ t.fault = some .memoryProtection ∧ changesOnly (fun p => p = .fault) s t

/-- A step on an illegal word raises DecodeFault with `pc` advanced by 2 and nothing else changed (R192, R193 item 2,
decision D11); the timers do not tick. The model's own field `input` takes the step's inputs. -/
def Obligations.IllegalWordFaultsWithTheCounterAdvanced : Prop :=
  ∀ (s : State) (w : Word) (e : DecodeError) (inp : StepInput), s.Fetches w →
    decodeWord s.cfg.exitWord w = .error e →
    ∃ t, stepWith inp s = .next t ∧ t.fault = some .decode ∧ t.pc = s.pc + 2 ∧
      changesOnly (fun p => p = .fault ∨ p = .pc ∨ p = .input) s t

/-- A step whose instruction raises a fault leaves `pc` advanced by 2, the kind latched and every other element as it
was before the step, the timers and `t_last` among them (R193 items 2 to 4, decision D11). -/
def Obligations.FaultingInstructionChangesOnlyCounterAndLatch : Prop :=
  ∀ (s t : State) (w : Word) (i : Instr) (inp : StepInput), s.Fetches w → decodeWord s.cfg.exitWord w = .ok i →
    stepWith inp s = .next t → t.fault ≠ none →
    t.pc = s.pc + 2 ∧ changesOnly (fun p => p = .fault ∨ p = .pc ∨ p = .input) s t

/-- The timer sync at the end of a step without a fault (R86): when at least 1/60 second has passed since `t_last`,
each nonzero timer drops by exactly 1 and the timestamp becomes `now`; otherwise neither changes. Nothing else is
touched after the instruction. (That it runs in every such step is decision D33.) -/
def Obligations.TimerSyncEndsEveryStepWithoutFault : Prop :=
  ∀ (s t : State) (w : Word) (i : Instr) (inp : StepInput), s.Fetches w → decodeWord s.cfg.exitWord w = .ok i →
    exec i { s with pc := s.pc + 2, input := inp } = .next t → t.fault = none →
    ∃ u, stepWith inp s = .next u ∧
      (inp.now - s.tLast ≥ 1 / 60 →
        u.dt.toNat = t.dt.toNat - 1 ∧ u.st.toNat = t.st.toNat - 1 ∧ u.tLast = inp.now) ∧
      (¬ inp.now - s.tLast ≥ 1 / 60 → u.dt = t.dt ∧ u.st = t.st ∧ u.tLast = s.tLast) ∧
      changesOnly (fun p => p = .dt ∨ p = .st ∨ p = .tLast) t u

/-- The causes of the three fault kinds are exactly the lists M1 to M10, S1, S2 and X1 (R191, R192; decisions D8 to
D10). -/
def Obligations.FaultCausesAreExactlyTheLists : Prop :=
  ∀ (s t : State) (inp : StepInput), s.fault = none → stepWith inp s = .next t →
    (t.fault = some .memoryProtection ↔
      s.pc.toNat < 0x200 ∨ 0xFFE < s.pc.toNat ∨
      ∃ w, s.Fetches w ∧
        ((∃ x, decodeWord s.cfg.exitWord w = .ok (.storeRegs x) ∧
            (s.i.toNat < 0x200 ∨ s.i.toNat + x.toNat > 0xFFF)) ∨
         (∃ x, decodeWord s.cfg.exitWord w = .ok (.loadRegs x) ∧
            (s.i.toNat < 0x200 ∨ s.i.toNat + x.toNat > 0xFFF)) ∨
         (∃ x, decodeWord s.cfg.exitWord w = .ok (.ldB x) ∧
            (s.i.toNat < 0x200 ∨ s.i.toNat + 2 > 0xFFF)) ∨
         (∃ x y n, decodeWord s.cfg.exitWord w = .ok (.drw x y n) ∧
            n.toNat ≥ 1 ∧ s.i.toNat + n.toNat - 1 > 0xFFF))) ∧
    (t.fault = some .stack ↔
      ∃ w, s.Fetches w ∧
        ((∃ nnn, decodeWord s.cfg.exitWord w = .ok (.call nnn) ∧ s.depth.val = 16) ∨
         (decodeWord s.cfg.exitWord w = .ok .ret ∧ s.depth.val = 0))) ∧
    (t.fault = some .decode ↔ ∃ w e, s.Fetches w ∧ decodeWord s.cfg.exitWord w = .error e)

/-- Every step, from every state, answers a next state: no run is ever stopped by the model (R91: "A STEP transaction
always terminates"). The time of `step` is "never less than any earlier `now` and never less than the reset time" (R81),
of which `input.now` holds the later since the last RESET (notes/assumptions/40). -/
def Obligations.EveryStepAnswersANextState : Prop :=
  ∀ s : State, (∃ t, step s = .next t ∧ s.input.now ≤ t.input.now) ∧ ∀ inp, ∃ t, stepWith inp s = .next t

/-- Every step and every transaction of the host, LOAD, SETKEY and RESET among them, keeps the invariant: memory stays
in its canonical form, nothing is listed in the reserved low region, and the configuration meets R5's constraints (R44,
R47, R80, R225). With `ResetStateMeetsTheInvariant` it so holds all along a run (R93). -/
def Obligations.EveryStepKeepsTheInvariant : Prop :=
  ∀ (s t : State) (inp : StepInput) (tr : Transaction), s.Inv →
    (step s = .next t → t.Inv) ∧ (stepWith inp s = .next t → t.Inv) ∧ (transact tr s = .next t → t.Inv)

/-- No step changes a byte of the reserved low region (R44's consequence; R23: the font never changes), nor the
configuration. -/
def Obligations.NoStepChangesTheReservedLowRegion : Prop :=
  ∀ (s t : State) (inp : StepInput), stepWith inp s = .next t →
    (∀ a, a < 0x200 → t.readByte a = s.readByte a) ∧ t.cfg = s.cfg

/-- Two memories in canonical form that read alike at every address are the same data. -/
def Obligations.CanonicalMemoriesReadingAlikeAreEqual : Prop :=
  ∀ (cfg : Config) (m m' : Memory), Memory.wf cfg m → Memory.wf cfg m' →
    (∀ a, Memory.read cfg m a = Memory.read cfg m' a) → m = m'

/-! ## Whole-machine rules about who writes what -/

/-- Only the six flag-writing instructions, and instructions that name VF as their destination, change VF (R12). -/
def Obligations.OnlyTheListedInstructionsChangeVF : Prop :=
  ∀ (i : Instr) (s t : State), exec i s = .next t → t.reg 0xF ≠ s.reg 0xF →
    (∃ x y, i = .addReg x y ∨ i = .subReg x y ∨ i = .shr x y ∨ i = .subnReg x y ∨ i = .shl x y) ∨
    (∃ x y n, i = .drw x y n) ∨
    (∃ kk, i = .ldImm 0xF kk ∨ i = .addImm 0xF kk ∨ i = .rnd 0xF kk) ∨
    (∃ y, i = .ldReg 0xF y ∨ i = .orReg 0xF y ∨ i = .andReg 0xF y ∨ i = .xorReg 0xF y) ∨
    i = .ldVxDt 0xF ∨ i = .ldVxK 0xF ∨ i = .loadRegs 0xF

/-- Only LD I,nnn, ADD I,Vx and LD F,Vx change `I` (R13, R147). -/
def Obligations.OnlyThreeInstructionsChangeTheIndex : Prop :=
  ∀ (i : Instr) (s t : State), exec i s = .next t → t.i ≠ s.i →
    (∃ nnn, i = .ldI nnn) ∨ (∃ x, i = .addI x) ∨ (∃ x, i = .ldF x)

/-- Only CALL and RET change the depth counter, and only CALL a stack slot (R15, R16). -/
def Obligations.OnlyCallAndRetChangeTheStack : Prop :=
  ∀ (i : Instr) (s t : State), exec i s = .next t →
    (t.depth ≠ s.depth → i = .ret ∨ ∃ nnn, i = .call nnn) ∧
    (∀ k : Fin 16, t.stack[k.val] ≠ s.stack[k.val] → ∃ nnn, i = .call nnn)

/-- The latch changes only by being consumed, by SKP, SKNP or LD Vx,K (R21, R210). -/
def Obligations.OnlyKeyInstructionsConsumeTheLatch : Prop :=
  ∀ (i : Instr) (s t : State), exec i s = .next t → t.key ≠ s.key →
    t.key = none ∧ ∃ x, i = .skp x ∨ i = .sknp x ∨ i = .ldVxK x

/-- Only LD B,Vx and LD [I],Vx change memory, and only CLS and DRW the framebuffer (R46, R22). -/
def Obligations.OnlyStoresChangeMemoryAndOnlyDisplayTheFramebuffer : Prop :=
  ∀ (i : Instr) (s t : State), exec i s = .next t →
    (∀ a, t.readByte a ≠ s.readByte a → ∃ x, i = .ldB x ∨ i = .storeRegs x) ∧
    (∀ r c, t.pixel r c ≠ s.pixel r c → i = .cls ∨ ∃ x y n, i = .drw x y n)

/-- The table of R110: the counter after each instruction, with `s.pc` the address after it (the instruction's own
address plus 2). The conditions of the skips are those of R105 to R108, R172 and R173. Three clauses rest on the spec's
own decisions: the counter after a fault is D11 (notes/assumptions/20), the sum of JP V0 not reduced modulo 4096 is D24
(notes/assumptions/25), and the key match on all 8 bits of the register is D15 (notes/assumptions/23). -/
def Obligations.CounterAfterEachInstruction : Prop :=
  ∀ (i : Instr) (s t : State), s.fault = none → exec i s = .next t →
    (t.fault ≠ none → t.pc = s.pc) ∧
    (t.fault = none → t.pc =
      match i with
      | .seImm x kk => if s.reg x = kk then s.pc + 2 else s.pc
      | .sneImm x kk => if s.reg x = kk then s.pc else s.pc + 2
      | .seReg x y => if s.reg x = s.reg y then s.pc + 2 else s.pc
      | .sneReg x y => if s.reg x = s.reg y then s.pc else s.pc + 2
      | .skp x => if s.key.map (fun k => k.toNat) = some (s.reg x).toNat then s.pc + 2 else s.pc
      | .sknp x => if s.key.map (fun k => k.toNat) = some (s.reg x).toNat then s.pc else s.pc + 2
      | .jp nnn => BitVec.ofNat 16 nnn.toNat
      | .call nnn => BitVec.ofNat 16 nnn.toNat
      | .jpV0 nnn => BitVec.ofNat 16 (nnn.toNat + (s.reg 0).toNat)
      | .ret => s.stack.toList.getD (s.depth.val - 1) 0
      | .exit => 0
      | .ldVxK _ => if s.key = none then s.pc - 2 else s.pc
      | _ => s.pc)

/-- The random byte is used only by RND (R81): another instruction's effect does not depend on it. -/
def Obligations.RandomByteReachesOnlyRnd : Prop :=
  ∀ (i : Instr) (s t : State) (b : Byte), (∀ x kk, i ≠ .rnd x kk) → exec i s = .next t →
    exec i { s with input := { s.input with rnd := b } } = .next { t with input := { t.input with rnd := b } }

/-! ## Control flow -/

/-- EXIT (R102), and so "a normal termination signal, not a fault" (R197): a run whose next STEP executes EXIT is over
at the state that STEP leaves, and has ended normally, whatever the host does afterwards (R93), further STEPs that fault
among it (R90). -/
def Obligations.ExitSetsTheHaltSentinel : Prop :=
  ∀ s : State,
    (∃ t, exec .exit s = .next t ∧ t.pc = 0 ∧ t.halted = true ∧ changesOnly (fun p => p = .pc) s t) ∧
    (∀ (w : Word) (inp : StepInput) (ts : List Transaction), s.Fetches w → decodeWord s.cfg.exitWord w = .ok .exit →
      ∃ t, stepWith inp s = .next t ∧ firstOver (.step inp :: ts) s = some t ∧ t.howEnded = .normally)

/-- JP nnn (R103). -/
def Obligations.JumpSetsTheCounterToTheAddress : Prop :=
  ∀ (s : State) (nnn : Addr), ∃ t, exec (.jp nnn) s = .next t ∧ t.pc.toNat = nnn.toNat ∧
    changesOnly (fun p => p = .pc) s t

/-- CALL nnn below depth 16 (R104). -/
def Obligations.CallPushesTheCounterAndJumps : Prop :=
  ∀ (s : State) (nnn : Addr) (h : s.depth.val < 16), ∃ t, exec (.call nnn) s = .next t ∧
    t.stack[s.depth.val] = s.pc ∧ t.depth.val = s.depth.val + 1 ∧ t.pc.toNat = nnn.toNat ∧
    changesOnly (fun p => p = .pc ∨ p = .depth ∨ p = .slot ⟨s.depth.val, h⟩) s t

/-- RET above depth 0 (R101); the slot keeps its content (R15). -/
def Obligations.ReturnPopsTheCounter : Prop :=
  ∀ s : State, (h : s.depth.val ≠ 0) → ∃ t, exec .ret s = .next t ∧
    t.pc = s.stack[s.depth.val - 1]'(by omega) ∧ t.depth.val = s.depth.val - 1 ∧
    changesOnly (fun p => p = .pc ∨ p = .depth) s t

/-- CALL on a full stack and RET on an empty one raise StackFault; nothing is pushed or popped and `pc` stays where
the fetch left it (R101, R104, R192). -/
def Obligations.StackInstructionsFaultAtTheirBounds : Prop :=
  ∀ s : State,
    (∀ nnn, s.depth.val = 16 → ∃ t, exec (.call nnn) s = .next t ∧ t.fault = some .stack ∧
      changesOnly (fun p => p = .fault) s t) ∧
    (s.depth.val = 0 → ∃ t, exec .ret s = .next t ∧ t.fault = some .stack ∧
      changesOnly (fun p => p = .fault) s t)

/-- "Call/return round-trip: call to address `A` followed by return restores the counter to the instruction
immediately after the original call" (R101), from any state that the called code leaves with the same depth and the
same return slot. -/
def Obligations.CallThenReturnRestoresTheCounter : Prop :=
  ∀ (s t u : State) (nnn : Addr) (h : s.depth.val < 16), exec (.call nnn) s = .next t →
    u.depth = t.depth → u.stack[s.depth.val] = t.stack[s.depth.val] →
    ∃ v, exec .ret u = .next v ∧ v.pc = s.pc ∧ v.depth = s.depth

/-- SE Vx,kk and SNE Vx,kk (R105, R106): equal skips for SE, unequal for SNE; a skip adds 2 to the already advanced
counter, modulo 65536. -/
def Obligations.ImmediateSkipsCompareRegisterAndImmediate : Prop :=
  ∀ (s : State) (x : Nibble) (kk : Byte),
    (∃ t, exec (.seImm x kk) s = .next t ∧
      t.pc.toNat = (if (s.reg x).toNat = kk.toNat then (s.pc.toNat + 2) % 65536 else s.pc.toNat) ∧
      changesOnly (fun p => p = .pc) s t) ∧
    (∃ t, exec (.sneImm x kk) s = .next t ∧
      t.pc.toNat = (if (s.reg x).toNat ≠ kk.toNat then (s.pc.toNat + 2) % 65536 else s.pc.toNat) ∧
      changesOnly (fun p => p = .pc) s t)

/-- SE Vx,Vy and SNE Vx,Vy (R107, R108). -/
def Obligations.RegisterSkipsCompareTwoRegisters : Prop :=
  ∀ (s : State) (x y : Nibble),
    (∃ t, exec (.seReg x y) s = .next t ∧
      t.pc.toNat = (if (s.reg x).toNat = (s.reg y).toNat then (s.pc.toNat + 2) % 65536 else s.pc.toNat) ∧
      changesOnly (fun p => p = .pc) s t) ∧
    (∃ t, exec (.sneReg x y) s = .next t ∧
      t.pc.toNat = (if (s.reg x).toNat ≠ (s.reg y).toNat then (s.pc.toNat + 2) % 65536 else s.pc.toNat) ∧
      changesOnly (fun p => p = .pc) s t)

/-- JP V0,nnn (R109): the exact sum, neither wrapped at 16 bits nor reduced modulo 4096 (decision D24). -/
def Obligations.IndirectJumpAddsV0 : Prop :=
  ∀ (s : State) (nnn : Addr), ∃ t, exec (.jpV0 nnn) s = .next t ∧ t.pc.toNat = nnn.toNat + (s.reg 0).toNat ∧
    changesOnly (fun p => p = .pc) s t

/-! ## Load and ALU -/

/-- LD Vx,kk (R121). -/
def Obligations.LoadImmediateWritesTheRegister : Prop :=
  ∀ (s : State) (x : Nibble) (kk : Byte), ∃ t, exec (.ldImm x kk) s = .next t ∧ t.reg x = kk ∧
    changesOnly (fun p => p = .reg x) s t

/-- ADD Vx,kk (R122): modulo 256, and VF is not written unless it is the destination. -/
def Obligations.AddImmediateWrapsAndSetsNoFlag : Prop :=
  ∀ (s : State) (x : Nibble) (kk : Byte), ∃ t, exec (.addImm x kk) s = .next t ∧
    (t.reg x).toNat = ((s.reg x).toNat + kk.toNat) % 256 ∧ changesOnly (fun p => p = .reg x) s t

/-- LD Vx,Vy (R123). -/
def Obligations.AssignCopiesTheRegister : Prop :=
  ∀ (s : State) (x y : Nibble), ∃ t, exec (.ldReg x y) s = .next t ∧ t.reg x = s.reg y ∧
    changesOnly (fun p => p = .reg x) s t

/-- OR, AND and XOR Vx,Vy (R124, R125, R126): bit by bit over 8 bits; VF is not written unless it is the
destination. -/
def Obligations.LogicInstructionsWorkBitByBit : Prop :=
  ∀ (s : State) (x y : Nibble),
    (∃ t, exec (.orReg x y) s = .next t ∧
      (∀ k < 8, (t.reg x).getLsbD k = ((s.reg x).getLsbD k || (s.reg y).getLsbD k)) ∧
      changesOnly (fun p => p = .reg x) s t) ∧
    (∃ t, exec (.andReg x y) s = .next t ∧
      (∀ k < 8, (t.reg x).getLsbD k = ((s.reg x).getLsbD k && (s.reg y).getLsbD k)) ∧
      changesOnly (fun p => p = .reg x) s t) ∧
    (∃ t, exec (.xorReg x y) s = .next t ∧
      (∀ k < 8, (t.reg x).getLsbD k = ((s.reg x).getLsbD k ^^ (s.reg y).getLsbD k)) ∧
      changesOnly (fun p => p = .reg x) s t)

/-- ADD Vx,Vy (R127, R132): with destination VF the flag stays (R120, decision D6). -/
def Obligations.AddSetsSumAndCarry : Prop :=
  ∀ (s : State) (x y : Nibble), ∃ t, exec (.addReg x y) s = .next t ∧
    (x ≠ 0xF → (t.reg x).toNat = ((s.reg x).toNat + (s.reg y).toNat) % 256) ∧
    t.reg 0xF = (if (s.reg x).toNat + (s.reg y).toNat > 255 then 1 else 0) ∧
    changesOnly (fun p => p = .reg x ∨ p = .reg 0xF) s t

/-- SUB and SUBN Vx,Vy (R128, R130, R132): the flag is 1 iff there is no borrow; with destination VF the flag stays
(R120, decision D6). -/
def Obligations.SubtractionsSetDifferenceAndNoBorrow : Prop :=
  ∀ (s : State) (x y : Nibble),
    (∃ t, exec (.subReg x y) s = .next t ∧
      (x ≠ 0xF → (t.reg x).toNat = ((s.reg x).toNat + 256 - (s.reg y).toNat) % 256) ∧
      t.reg 0xF = (if (s.reg x).toNat ≥ (s.reg y).toNat then 1 else 0) ∧
      changesOnly (fun p => p = .reg x ∨ p = .reg 0xF) s t) ∧
    (∃ t, exec (.subnReg x y) s = .next t ∧
      (x ≠ 0xF → (t.reg x).toNat = ((s.reg y).toNat + 256 - (s.reg x).toNat) % 256) ∧
      t.reg 0xF = (if (s.reg y).toNat ≥ (s.reg x).toNat then 1 else 0) ∧
      changesOnly (fun p => p = .reg x ∨ p = .reg 0xF) s t)

/-- SHR and SHL (R129, R131, R132), for either value of SHIFT_USES_VY (decision D5): the flag is the bit shifted out;
with destination VF the flag stays (R120, decision D6). -/
def Obligations.ShiftsMoveOneBitIntoTheFlag : Prop :=
  ∀ (s : State) (x y : Nibble) (b : Nat),
    b = (if s.cfg.shiftUsesVy = true then (s.reg y).toNat else (s.reg x).toNat) →
    (∃ t, exec (.shr x y) s = .next t ∧
      (x ≠ 0xF → (t.reg x).toNat = b / 2) ∧ (t.reg 0xF).toNat = b % 2 ∧
      changesOnly (fun p => p = .reg x ∨ p = .reg 0xF) s t) ∧
    (∃ t, exec (.shl x y) s = .next t ∧
      (x ≠ 0xF → (t.reg x).toNat = (2 * b) % 256) ∧ (t.reg 0xF).toNat = b / 128 ∧
      changesOnly (fun p => p = .reg x ∨ p = .reg 0xF) s t)

/-! ## Index register and memory -/

/-- LD I,nnn (R141). -/
def Obligations.LoadIndexSetsTheAddress : Prop :=
  ∀ (s : State) (nnn : Addr), ∃ t, exec (.ldI nnn) s = .next t ∧ t.i.toNat = nnn.toNat ∧
    changesOnly (fun p => p = .i) s t

/-- ADD I,Vx (R142): modulo 65536 (decision D24), no flag. -/
def Obligations.AddToIndexWrapsAtSixteenBits : Prop :=
  ∀ (s : State) (x : Nibble), ∃ t, exec (.addI x) s = .next t ∧
    t.i.toNat = (s.i.toNat + (s.reg x).toNat) % 65536 ∧ changesOnly (fun p => p = .i) s t

/-- LD F,Vx (R143): the formula on all 8 bits of the register (decision D16), for every FONT_BASE. -/
def Obligations.GlyphAddressIsFiveRowsPerDigit : Prop :=
  ∀ (s : State) (x : Nibble), ∃ t, exec (.ldF x) s = .next t ∧
    t.i.toNat = (s.cfg.fontBase + 5 * (s.reg x).toNat) % 65536 ∧ changesOnly (fun p => p = .i) s t

/-- LD B,Vx (R144): hundreds, tens and ones at `I`, `I+1`, `I+2`, whenever the three bytes lie in the program region
(decisions D8, D9). -/
def Obligations.DecimalDigitsAreStoredAtTheIndex : Prop :=
  ∀ (s : State) (x : Nibble), 0x200 ≤ s.i.toNat → s.i.toNat + 2 ≤ 0xFFF →
    ∃ t, exec (.ldB x) s = .next t ∧
      (t.readByte (indexAddr s)).toNat = (s.reg x).toNat / 100 ∧
      (t.readByte (indexAddr s + 1)).toNat = (s.reg x).toNat / 10 % 10 ∧
      (t.readByte (indexAddr s + 2)).toNat = (s.reg x).toNat % 10 ∧
      changesOnly (fun p => ∃ k, k < 3 ∧ p = .byte (indexAddr s + k)) s t

/-- LD [I],Vx (R145): `V[0]` to `V[x]` at `I` upward, whenever the block lies in the program region (decision D8). -/
def Obligations.BulkStoreWritesTheRegistersInOrder : Prop :=
  ∀ (s : State) (x : Nibble), 0x200 ≤ s.i.toNat → s.i.toNat + x.toNat ≤ 0xFFF →
    ∃ t, exec (.storeRegs x) s = .next t ∧
      (∀ j : Nibble, j.toNat ≤ x.toNat → t.readByte (indexAddr s + j.toNat) = s.reg j) ∧
      changesOnly (fun p => ∃ k, k ≤ x.toNat ∧ p = .byte (indexAddr s + k)) s t

/-- LD Vx,[I] (R146): the bytes at `I` upward into `V[0]` to `V[x]`, whenever the block lies in the program region
(decisions D8, D10). -/
def Obligations.BulkLoadReadsTheRegistersInOrder : Prop :=
  ∀ (s : State) (x : Nibble), 0x200 ≤ s.i.toNat → s.i.toNat + x.toNat ≤ 0xFFF →
    ∃ t, exec (.loadRegs x) s = .next t ∧
      (∀ j : Nibble, j.toNat ≤ x.toNat → t.reg j = s.readByte (s.i.toNat + j.toNat)) ∧
      changesOnly (fun p => ∃ j : Nibble, j.toNat ≤ x.toNat ∧ p = .reg j) s t

/-- Outside their ranges LD B, LD [I], LD Vx,[I] and DRW raise MemoryProtectionFault and change nothing but the latch:
no byte, no register and no pixel (R43, R44, R193; decisions D8 to D11). -/
def Obligations.BlockInstructionsFaultOutsideTheirRange : Prop :=
  ∀ (s : State) (x y n : Nibble),
    ((s.i.toNat < 0x200 ∨ s.i.toNat + 2 > 0xFFF) → ∃ t, exec (.ldB x) s = .next t ∧
      t.fault = some .memoryProtection ∧ changesOnly (fun p => p = .fault) s t) ∧
    ((s.i.toNat < 0x200 ∨ s.i.toNat + x.toNat > 0xFFF) →
      (∃ t, exec (.storeRegs x) s = .next t ∧
        t.fault = some .memoryProtection ∧ changesOnly (fun p => p = .fault) s t) ∧
      (∃ t, exec (.loadRegs x) s = .next t ∧
        t.fault = some .memoryProtection ∧ changesOnly (fun p => p = .fault) s t)) ∧
    (n.toNat ≥ 1 ∧ s.i.toNat + n.toNat - 1 > 0xFFF → ∃ t, exec (.drw x y n) s = .next t ∧
      t.fault = some .memoryProtection ∧ changesOnly (fun p => p = .fault) s t)

/-- "set registers 0-3 to {1,2,3,4}, bulk-store through register 3, zero all registers, bulk-load through register 3 ->
registers restored" (R146), for every register count and all values, from any state with the stored memory and the
same `I`. -/
def Obligations.BulkStoreThenLoadRestoresTheRegisters : Prop :=
  ∀ (s t u : State) (x : Nibble), 0x200 ≤ s.i.toNat → s.i.toNat + x.toNat ≤ 0xFFF →
    exec (.storeRegs x) s = .next t → u.mem = t.mem → u.cfg = t.cfg → u.i = s.i →
    ∃ v, exec (.loadRegs x) u = .next v ∧ ∀ j : Nibble, j.toNat ≤ x.toNat → v.reg j = s.reg j

/-! ## Display -/

/-- CLS (R161). -/
def Obligations.ClearErasesEveryPixel : Prop :=
  ∀ s : State, ∃ t, exec .cls s = .next t ∧ (∀ r c, t.pixel r c = false) ∧
    changesOnly (fun p => ∃ r c, p = .pixel r c) s t

/-- The sprite that DRW draws has a set bit on the pixel (r, c): some row `i` below the count and some bit `j` of it
land there, both axes wrapped per pixel (R160, R162, R164). -/
def spriteCovers (s : State) (x y n : Nibble) (r : Fin 32) (c : Fin 64) : Prop :=
  ∃ i j : Nat, i < n.toNat ∧ j < 8 ∧ r.val = ((s.reg y).toNat + i) % 32 ∧ c.val = ((s.reg x).toNat + j) % 64 ∧
    (s.readByte (s.i.toNat + i)).getLsbD (7 - j) = true

/-- DRW (R162, R163), whenever its sprite bytes lie in memory, `n = 0` among the cases (decisions D8, D14): every pixel
is the old pixel XOR the sprite's bit there; VF is written by DRAW_FLAG_MODE (decision D13) iff some set pixel meets a
set sprite bit, and is otherwise unchanged. -/
def Obligations.DrawXorsTheSpriteAndReportsCollisions : Prop :=
  ∀ (s : State) (x y n : Nibble), (n.toNat = 0 ∨ s.i.toNat + n.toNat - 1 ≤ 0xFFF) →
    ∃ t, exec (.drw x y n) s = .next t ∧
      (∀ r c, spriteCovers s x y n r c → t.pixel r c = !(s.pixel r c)) ∧
      (∀ r c, ¬ spriteCovers s x y n r c → t.pixel r c = s.pixel r c) ∧
      ((∃ r c, s.pixel r c = true ∧ spriteCovers s x y n r c) →
        t.reg 0xF = (match s.cfg.drawFlagMode with | .orAccumulate => s.reg 0xF ||| 1 | .setOne => 1)) ∧
      ((¬ ∃ r c, s.pixel r c = true ∧ spriteCovers s x y n r c) → t.reg 0xF = s.reg 0xF) ∧
      changesOnly (fun p => p = .reg 0xF ∨ ∃ r c, p = .pixel r c) s t

/-- "Drawing the same sprite twice at the same place restores the framebuffer (XOR)" (R162), for every sprite and
place; the place is the same when the first draw leaves both coordinate registers alone, which VF as a coordinate
might not be. -/
def Obligations.DrawingTwiceRestoresTheFramebuffer : Prop :=
  ∀ (s t u : State) (x y n : Nibble), exec (.drw x y n) s = .next t → exec (.drw x y n) t = .next u →
    t.reg x = s.reg x → t.reg y = s.reg y → ∀ r c, u.pixel r c = s.pixel r c

/-! ## Keys, timers and the random byte -/

/-- RND Vx,kk (R171): the step's random byte, whatever it is, under the mask (decision D18). -/
def Obligations.RandomByteIsMasked : Prop :=
  ∀ (s : State) (x : Nibble) (kk : Byte), ∃ t, exec (.rnd x kk) s = .next t ∧
    (∀ k < 8, (t.reg x).getLsbD k = (s.input.rnd.getLsbD k && kk.getLsbD k)) ∧
    changesOnly (fun p => p = .reg x) s t

/-- SKP Vx (R172): with the match on all 8 bits of the register (R170, decision D15). -/
def Obligations.SkipIfKeySkipsAndConsumesOnMatch : Prop :=
  ∀ (s : State) (x : Nibble), ∃ t, exec (.skp x) s = .next t ∧
    ((∃ k : Nibble, s.key = some k ∧ k.toNat = (s.reg x).toNat) →
      t.pc.toNat = (s.pc.toNat + 2) % 65536 ∧ t.key = none ∧ changesOnly (fun p => p = .pc ∨ p = .key) s t) ∧
    ((¬ ∃ k : Nibble, s.key = some k ∧ k.toNat = (s.reg x).toNat) → t = s)

/-- SKNP Vx (R173): with the match on all 8 bits of the register (R170, decision D15). -/
def Obligations.SkipIfNotKeyConsumesOnMatchWithoutSkipping : Prop :=
  ∀ (s : State) (x : Nibble), ∃ t, exec (.sknp x) s = .next t ∧
    ((∃ k : Nibble, s.key = some k ∧ k.toNat = (s.reg x).toNat) →
      t.key = none ∧ changesOnly (fun p => p = .key) s t) ∧
    ((¬ ∃ k : Nibble, s.key = some k ∧ k.toNat = (s.reg x).toNat) →
      t.pc.toNat = (s.pc.toNat + 2) % 65536 ∧ changesOnly (fun p => p = .pc) s t)

/-- LD Vx,K (R175): with no key the counter goes back to the instruction and nothing else changes; with a key its
code is copied, zero-extended (decision D28), and the latch consumed. -/
def Obligations.BlockForKeyRewindsOrTakesTheKey : Prop :=
  ∀ (s : State) (x : Nibble), ∃ t, exec (.ldVxK x) s = .next t ∧
    (s.key = none → t.pc = s.pc - 2 ∧ changesOnly (fun p => p = .pc) s t) ∧
    (∀ k, s.key = some k → (t.reg x).toNat = k.toNat ∧ t.key = none ∧
      changesOnly (fun p => p = .reg x ∨ p = .key) s t)

/-- LD Vx,DT, LD DT,Vx and LD ST,Vx (R174, R176, R177): one copy each, of the timer before this step's timer sync;
`t_last` is not touched. -/
def Obligations.TimerInstructionsCopyTimerAndRegister : Prop :=
  ∀ (s : State) (x : Nibble),
    (∃ t, exec (.ldVxDt x) s = .next t ∧ t.reg x = s.dt ∧ changesOnly (fun p => p = .reg x) s t) ∧
    (∃ t, exec (.ldDtVx x) s = .next t ∧ t.dt = s.reg x ∧ changesOnly (fun p => p = .dt) s t) ∧
    (∃ t, exec (.ldStVx x) s = .next t ∧ t.st = s.reg x ∧ changesOnly (fun p => p = .st) s t)
end

