-- ==== Sys2Proof/Laws/Decode.lean ====
section
/-! SUPPORT. The fields of an encoded word are the operands it was built from (spec/30_encoding.md R61, R62). -/

namespace Sys2Proof

@[simp] theorem opField_formatA (op : Nibble) (nnn : Addr) : opField (formatA op nnn) = op :=
  BitVec.extractLsb'_append_eq_left

@[simp] theorem nnnField_formatA (op : Nibble) (nnn : Addr) : nnnField (formatA op nnn) = nnn :=
  BitVec.extractLsb'_append_eq_right

@[simp] theorem opField_formatXK (op x : Nibble) (kk : Byte) : opField (formatXK op x kk) = op :=
  BitVec.extractLsb'_append_eq_left (b := x ++ kk)

@[simp] theorem xField_formatXK (op x : Nibble) (kk : Byte) : xField (formatXK op x kk) = x := by
  refine BitVec.eq_of_getLsbD_eq fun k hk => ?_
  simp only [xField, formatXK, BitVec.getLsbD_extractLsb', BitVec.getLsbD_append]
  interval_cases k <;> simp

@[simp] theorem kkField_formatXK (op x : Nibble) (kk : Byte) : kkField (formatXK op x kk) = kk := by
  refine BitVec.eq_of_getLsbD_eq fun k hk => ?_
  simp only [kkField, formatXK, BitVec.getLsbD_extractLsb', BitVec.getLsbD_append]
  interval_cases k <;> simp

@[simp] theorem opField_formatXYN (op x y n : Nibble) : opField (formatXYN op x y n) = op :=
  BitVec.extractLsb'_append_eq_left (b := x ++ (y ++ n))

@[simp] theorem xField_formatXYN (op x y n : Nibble) : xField (formatXYN op x y n) = x := by
  refine BitVec.eq_of_getLsbD_eq fun k hk => ?_
  simp only [xField, formatXYN, BitVec.getLsbD_extractLsb', BitVec.getLsbD_append]
  interval_cases k <;> simp

@[simp] theorem yField_formatXYN (op x y n : Nibble) : yField (formatXYN op x y n) = y := by
  refine BitVec.eq_of_getLsbD_eq fun k hk => ?_
  simp only [yField, formatXYN, BitVec.getLsbD_extractLsb', BitVec.getLsbD_append]
  interval_cases k <;> simp

@[simp] theorem nField_formatXYN (op x y n : Nibble) : nField (formatXYN op x y n) = n := by
  refine BitVec.eq_of_getLsbD_eq fun k hk => ?_
  simp only [nField, formatXYN, BitVec.getLsbD_extractLsb', BitVec.getLsbD_append]
  interval_cases k <;> simp

/-- The bits that a family's mask fixes in each format (R62). -/
theorem formatA_mask (op : Nibble) (nnn : Addr) : formatA op nnn &&& 0xF000 = formatA op 0 := by
  refine BitVec.eq_of_getLsbD_eq fun k hk => ?_
  simp only [formatA, BitVec.getLsbD_and, BitVec.getLsbD_append]
  interval_cases k <;> simp

theorem formatXK_mask (op x : Nibble) (kk : Byte) : formatXK op x kk &&& 0xF000 = formatXK op 0 0 := by
  refine BitVec.eq_of_getLsbD_eq fun k hk => ?_
  simp only [formatXK, BitVec.getLsbD_and, BitVec.getLsbD_append]
  interval_cases k <;> simp

theorem formatX_mask (op x : Nibble) (kk : Byte) : formatXK op x kk &&& 0xF0FF = formatXK op 0 kk := by
  refine BitVec.eq_of_getLsbD_eq fun k hk => ?_
  simp only [formatXK, BitVec.getLsbD_and, BitVec.getLsbD_append]
  interval_cases k <;> simp

theorem formatXY_mask (op x y n : Nibble) : formatXYN op x y n &&& 0xF00F = formatXYN op 0 0 n := by
  refine BitVec.eq_of_getLsbD_eq fun k hk => ?_
  simp only [formatXYN, BitVec.getLsbD_and, BitVec.getLsbD_append]
  interval_cases k <;> simp

theorem formatXYN_mask (op x y n : Nibble) : formatXYN op x y n &&& 0xF000 = formatXYN op 0 0 0 := by
  refine BitVec.eq_of_getLsbD_eq fun k hk => ?_
  simp only [formatXYN, BitVec.getLsbD_and, BitVec.getLsbD_append]
  interval_cases k <;> simp

/-! ## The words as numbers -/

/-- The bits of a concatenation, as a number (R6: `a || b` has `a` in the high bits). -/
theorem toNat_append_eq {m n : Nat} (a : BitVec m) (b : BitVec n) : (a ++ b).toNat = a.toNat * 2 ^ n + b.toNat := by
  rw [BitVec.toNat_append, Nat.shiftLeft_eq, Nat.mul_comm, Nat.two_pow_add_eq_or_of_lt b.isLt]

/-- The word of format A as a number (R62). -/
theorem formatA_toNat (op : Nibble) (nnn : Addr) : (formatA op nnn).toNat = 0x1000 * op.toNat + nnn.toNat := by
  rw [formatA, toNat_append_eq]
  omega

/-- The words of formats XK and X as numbers (R62). -/
theorem formatXK_toNat (op x : Nibble) (kk : Byte) :
    (formatXK op x kk).toNat = 0x1000 * op.toNat + 0x100 * x.toNat + kk.toNat := by
  rw [formatXK, toNat_append_eq, toNat_append_eq]
  omega

/-- The words of formats XY and XYN as numbers (R62). -/
theorem formatXYN_toNat (op x y n : Nibble) :
    (formatXYN op x y n).toNat = 0x1000 * op.toNat + 0x100 * x.toNat + 0x10 * y.toNat + n.toNat := by
  rw [formatXYN, toNat_append_eq, toNat_append_eq, toNat_append_eq]
  omega

end Sys2Proof
end

