-- ==== Sys2Proof/Laws/Memory.lean ====
section
/-! SUPPORT. The laws of memory: a read after a write, and that every memory operation keeps the canonical form. -/

namespace Sys2Proof.Machine

/-! ## Cells -/

@[simp] theorem lookupCell_nil (a : Nat) : lookupCell [] a = none := rfl

theorem lookupCell_insertCell (a a' : Nat) (b : Byte) (m : List Host.Cell) :
    lookupCell (insertCell a b m) a' = if a' = a then some b else lookupCell m a' := by
  induction m with
  | nil => simp [insertCell, lookupCell]
  | cons cell rest ih =>
    by_cases h₁ : a < cell.1
    · simp [insertCell, h₁, lookupCell]
    · by_cases h₂ : a = cell.1
      · by_cases h₃ : a' = a <;> simp_all [insertCell, lookupCell]
      · by_cases h₃ : a' = cell.1
        · have h₄ : a' ≠ a := fun e => h₂ (e.symm.trans h₃)
          simp [insertCell, h₁, h₂, lookupCell, h₃, Ne.symm h₂]
        · simp [insertCell, h₁, h₂, lookupCell, h₃, ih]

theorem lookupCell_eraseCell (a a' : Nat) (m : List Host.Cell) :
    lookupCell (eraseCell a m) a' = if a' = a then none else lookupCell m a' := by
  induction m with
  | nil => simp [eraseCell]
  | cons cell rest ih =>
    by_cases h₂ : a = cell.1 <;> by_cases h₃ : a' = a <;> simp_all [eraseCell, lookupCell]

theorem mem_insertCell {c : Host.Cell} {a : Nat} {b : Byte} {m : List Host.Cell}
    (h : c ∈ insertCell a b m) : c = (a, b) ∨ c ∈ m := by
  induction m with
  | nil => exact .inl (List.mem_singleton.mp h)
  | cons cell rest ih =>
    simp only [insertCell] at h
    split at h
    · exact List.mem_cons.mp h
    · split at h
      · rcases List.mem_cons.mp h with h | h
        · exact .inl h
        · exact .inr (List.mem_cons_of_mem _ h)
      · rcases List.mem_cons.mp h with h | h
        · exact .inr (h ▸ List.mem_cons_self)
        · exact (ih h).imp id (List.mem_cons_of_mem _)

theorem mem_eraseCell {c : Host.Cell} {a : Nat} {m : List Host.Cell} (h : c ∈ eraseCell a m) : c ∈ m := by
  induction m with
  | nil => exact absurd h List.not_mem_nil
  | cons cell rest ih =>
    simp only [eraseCell] at h
    split at h
    · exact List.mem_cons_of_mem _ (ih h)
    · rcases List.mem_cons.mp h with h | h
      · exact h ▸ List.mem_cons_self
      · exact List.mem_cons_of_mem _ (ih h)

theorem insertCell_rising {a : Nat} {b : Byte} {m : List Host.Cell}
    (h : m.Pairwise fun c d => c.1 < d.1) : (insertCell a b m).Pairwise fun c d => c.1 < d.1 := by
  induction m with
  | nil => simp [insertCell]
  | cons cell rest ih =>
    obtain ⟨hc, hr⟩ := List.pairwise_cons.mp h
    simp only [insertCell]
    split
    next hlt =>
      refine List.pairwise_cons.mpr ⟨fun d hd => ?_, h⟩
      rcases List.mem_cons.mp hd with rfl | hd
      · exact hlt
      · exact lt_trans hlt (hc d hd)
    next hge =>
      split
      next heq => exact List.pairwise_cons.mpr ⟨fun d hd => by simpa [heq] using hc d hd, hr⟩
      next hne =>
        refine List.pairwise_cons.mpr ⟨fun d hd => ?_, ih hr⟩
        rcases mem_insertCell hd with rfl | hd
        · show cell.1 < a
          omega
        · exact hc d hd

theorem eraseCell_rising {a : Nat} {m : List Host.Cell}
    (h : m.Pairwise fun c d => c.1 < d.1) : (eraseCell a m).Pairwise fun c d => c.1 < d.1 := by
  induction m with
  | nil => simp [eraseCell]
  | cons cell rest ih =>
    obtain ⟨hc, hr⟩ := List.pairwise_cons.mp h
    simp only [eraseCell]
    split
    · exact ih hr
    · exact List.pairwise_cons.mpr ⟨fun d hd => hc d (mem_eraseCell hd), ih hr⟩

/-! ## Memory.write -/

/-- R47, R49: a read returns the byte last written there, and a write changes exactly the addressed byte. -/
theorem Memory.read_write (cfg : Config) (m : Memory) (a a' : Nat) (b : Byte) :
    Memory.read cfg (Memory.write cfg m a b) a' =
      if a' = a ∧ a < memSize then b else Memory.read cfg m a' := by
  by_cases ha : a < memSize
  · by_cases hb : b = resetByte cfg a <;> by_cases h : a' = a <;>
      simp_all [Memory.write, Memory.read, lookupCell_insertCell, lookupCell_eraseCell]
  · simp [Memory.write, ha]

/-- Every cell after a write was there before or is the written one, at an address inside memory. -/
theorem Memory.mem_write {cfg : Config} {m : Memory} {a : Nat} {b : Byte} {c : Host.Cell}
    (h : c ∈ Memory.write cfg m a b) : c ∈ m ∨ (c = (a, b) ∧ a < memSize ∧ b ≠ resetByte cfg a) := by
  unfold Memory.write at h
  split at h
  next ha =>
    split at h
    next => exact .inl (mem_eraseCell h)
    next hb => exact (mem_insertCell h).symm.imp id fun e => ⟨e, ha, hb⟩
  next => exact .inl h

theorem Memory.write_wf {cfg : Config} {m : Memory} {a : Nat} {b : Byte} (h : Memory.wf cfg m) :
    Memory.wf cfg (Memory.write cfg m a b) := by
  refine ⟨?_, fun c hc => ?_⟩
  · unfold Memory.write
    split
    · split
      · exact eraseCell_rising h.1
      · exact insertCell_rising h.1
    · exact h.1
  · rcases Memory.mem_write hc with hc | ⟨rfl, ha, hb⟩
    · exact h.2 c hc
    · exact ⟨ha, hb⟩

theorem Memory.wf_nil (cfg : Config) : Memory.wf cfg [] := ⟨.nil, fun _ h => absurd h List.not_mem_nil⟩

/-! ## The state's memory operations -/

theorem State.readByte_writeByte (s : State) (a a' : Nat) (b : Byte) :
    (s.writeByte a b).readByte a' = if a' = a ∧ a < memSize then b else s.readByte a' :=
  Memory.read_write s.cfg s.mem a a' b

theorem State.readByte_congr {s t : State} (hc : t.cfg = s.cfg) (hm : t.mem = s.mem) (a : Nat) :
    t.readByte a = s.readByte a := by simp [State.readByte, hc, hm]

theorem State.writeBlock_nil (s : State) (a : Nat) : s.writeBlock a [] = s := rfl

theorem State.writeBlock_cons (s : State) (a : Nat) (b : Byte) (bs : List Byte) :
    s.writeBlock a (b :: bs) = (s.writeByte a b).writeBlock (a + 1) bs := rfl

/-- A block write changes memory and nothing else. -/
theorem State.writeBlock_eq (s : State) (a : Nat) (bs : List Byte) :
    s.writeBlock a bs = { s with mem := (s.writeBlock a bs).mem } := by
  induction bs generalizing s a with
  | nil => rfl
  | cons b bs ih =>
    rw [State.writeBlock_cons, ih]
    rfl

/-- Everything a block write does: inside the block the bytes in order, outside nothing. -/
theorem State.readByte_writeBlock (s : State) (a a' : Nat) (bs : List Byte) (h : a + bs.length ≤ memSize) :
    (s.writeBlock a bs).readByte a' =
      if h : a ≤ a' ∧ a' < a + bs.length then bs[a' - a]'(by omega) else s.readByte a' := by
  induction bs generalizing s a with
  | nil => rw [State.writeBlock_nil, dif_neg (by simp)]
  | cons b bs ih =>
    rw [State.writeBlock_cons, ih _ _ (by simp at h; omega), State.readByte_writeByte]
    simp only [List.length_cons] at h ⊢
    by_cases h₁ : a' = a
    · subst h₁
      simp
      omega
    · by_cases h₂ : a + 1 ≤ a' ∧ a' < a + 1 + bs.length
      · have h₃ : a ≤ a' ∧ a' < a + (bs.length + 1) := by omega
        have h₄ : a' - a = (a' - (a + 1)) + 1 := by omega
        simp only [h₂, h₃, and_self, dite_true, h₄, List.getElem_cons_succ]
      · have h₃ : ¬ (a ≤ a' ∧ a' < a + (bs.length + 1)) := by omega
        rw [dif_neg h₂, dif_neg h₃, if_neg (by tauto)]

/-- Outside its block a write changes no byte, wherever the block lies. -/
theorem State.readByte_writeBlock_outside (s : State) (a a' : Nat) (bs : List Byte)
    (h : ¬ (a ≤ a' ∧ a' < a + bs.length)) : (s.writeBlock a bs).readByte a' = s.readByte a' := by
  induction bs generalizing s a with
  | nil => rfl
  | cons b bs ih =>
    simp only [List.length_cons] at h
    rw [State.writeBlock_cons, ih _ _ (by omega), State.readByte_writeByte, if_neg (by omega)]

/-- Every cell a block write leaves was there before or lies at an address from the block's start on, in memory. -/
theorem State.writeBlock_lowest {s : State} {a low : Nat} {bs : List Byte} (ha : low ≤ a)
    (h : ∀ c ∈ s.mem, low ≤ c.1) : ∀ c ∈ (s.writeBlock a bs).mem, low ≤ c.1 := by
  induction bs generalizing s a with
  | nil => exact h
  | cons b bs ih =>
    refine ih (by omega) fun c hc => ?_
    rcases Memory.mem_write hc with hc | ⟨rfl, -, -⟩
    · exact h c hc
    · exact ha

theorem State.writeBlock_wf {s : State} {a : Nat} {bs : List Byte} (h : Memory.wf s.cfg s.mem) :
    Memory.wf s.cfg (s.writeBlock a bs).mem := by
  induction bs generalizing s a with
  | nil => exact h
  | cons b bs ih => exact ih (s := s.writeByte a b) (Memory.write_wf h)

@[simp] theorem State.length_readBlock (s : State) (a n : Nat) : (s.readBlock a n).length = n := by
  simp [State.readBlock]

@[simp] theorem State.getElem_readBlock (s : State) (a n k : Nat) (h : k < (s.readBlock a n).length) :
    (s.readBlock a n)[k] = s.readByte (a + k) := by
  simp [State.readBlock]

/-- Reset memory is canonical: it lists nothing. -/
theorem State.resetAt_wf (cfg : Config) (now : Rat) (draws : Nat) :
    Memory.wf (State.resetAt cfg now draws).cfg (State.resetAt cfg now draws).mem := Memory.wf_nil cfg

end Sys2Proof.Machine
end

