-- ==== Sys2Proof/Laws/Ops.lean ====
section
/-! SUPPORT. One lemma per shared operation that says everything it can do. -/

namespace Sys2Proof.Machine

/-! ## Registers -/

/-- R11: a register write changes the one register and no other. -/
theorem State.reg_setReg (s : State) (x y : Nibble) (b : Byte) :
    (s.setReg x b).reg y = if y = x then b else s.reg y := by
  simp only [State.reg, State.setReg_v, Vector.getElem_set, BitVec.toNat_inj, eq_comm]

@[simp] theorem State.reg_setReg_self (s : State) (x : Nibble) (b : Byte) : (s.setReg x b).reg x = b := by
  simp [State.reg_setReg]

theorem State.reg_setReg_of_ne {s : State} {x y : Nibble} {b : Byte} (h : y ≠ x) :
    (s.setReg x b).reg y = s.reg y := by
  simp [State.reg_setReg, h]

theorem State.reg_congr {s t : State} (h : t.v = s.v) (x : Nibble) : t.reg x = s.reg x := by
  simp [State.reg, h]

/-- A run of register writes changes the registers and nothing else. -/
theorem State.setRegsFrom_eq (s : State) (k : Nat) (bs : List Byte) :
    s.setRegsFrom k bs = { s with v := (s.setRegsFrom k bs).v } := by
  induction bs generalizing s k with
  | nil => rfl
  | cons b bs ih =>
    show (s.setReg _ b).setRegsFrom (k + 1) bs = _
    rw [ih]
    rfl

/-- Everything a run of register writes does: `V[k]`, `V[k+1]`, … take the bytes in order, the others stay. -/
theorem State.reg_setRegsFrom (s : State) (k : Nat) (bs : List Byte) (x : Nibble) (h : k + bs.length ≤ 16) :
    (s.setRegsFrom k bs).reg x =
      if h : k ≤ x.toNat ∧ x.toNat < k + bs.length then bs[x.toNat - k]'(by omega) else s.reg x := by
  induction bs generalizing s k with
  | nil => rw [dif_neg (by simp)]; rfl
  | cons b bs ih =>
    simp only [List.length_cons] at h ⊢
    show ((s.setReg _ b).setRegsFrom (k + 1) bs).reg x = _
    rw [ih _ _ (by omega), State.reg_setReg]
    have hx : x = BitVec.ofNat 4 k ↔ x.toNat = k := by
      rw [← BitVec.toNat_inj, BitVec.toNat_ofNat, Nat.mod_eq_of_lt (by omega)]
    by_cases h₁ : x.toNat = k
    · rw [dif_neg (by omega), if_pos (hx.mpr h₁), dif_pos (by omega)]
      simp [h₁]
    · by_cases h₂ : k + 1 ≤ x.toNat ∧ x.toNat < k + 1 + bs.length
      · have h₄ : x.toNat - k = (x.toNat - (k + 1)) + 1 := by omega
        rw [dif_pos h₂, dif_pos (by omega)]
        simp only [h₄, List.getElem_cons_succ]
      · rw [dif_neg h₂, dif_neg (by omega), if_neg (fun e => h₁ (hx.mp e))]

@[simp] theorem State.length_regsBelow (s : State) (n : Nat) : (s.regsBelow n).length = n := by
  simp [State.regsBelow]

@[simp] theorem State.getElem_regsBelow (s : State) (n k : Nat) (h : k < (s.regsBelow n).length) :
    (s.regsBelow n)[k] = s.reg (BitVec.ofNat 4 k) := by
  simp [State.regsBelow]

/-! ## The call stack -/

/-- R104: a push succeeds exactly below depth 16; then the slot at the old depth holds the address. -/
theorem State.push_eq_some {s s' : State} {ret : Word} (h : s.push ret = some s') :
    ∃ hd : s.depth.val < 16,
      s' = { s with stack := s.stack.set s.depth.val ret hd, depth := ⟨s.depth.val + 1, by omega⟩ } := by
  unfold State.push at h
  split at h
  next hd => exact ⟨hd, (Option.some.inj h).symm⟩
  next => cases h

theorem State.push_eq_none {s : State} {ret : Word} : s.push ret = none ↔ s.depth.val = 16 := by
  unfold State.push
  split <;> simp <;> omega

/-- R101: a pop succeeds exactly above depth 0; the slot keeps its content. -/
theorem State.pop_eq_some {s s' : State} {ret : Word} (h : s.pop = some (ret, s')) :
    s.depth.val ≠ 0 ∧ ret = s.stack[s.depth.val - 1]'(by omega) ∧
      s' = { s with depth := ⟨s.depth.val - 1, by omega⟩ } := by
  unfold State.pop at h
  split at h
  next => cases h
  next hd =>
    obtain ⟨rfl, rfl⟩ := Prod.mk.inj (Option.some.inj h)
    exact ⟨hd, rfl, rfl⟩

theorem State.pop_eq_none {s : State} : s.pop = none ↔ s.depth.val = 0 := by
  unfold State.pop
  split <;> simp_all

/-! ## The framebuffer -/

theorem Framebuffer.pixel_setPixel (f : Framebuffer) (r r' : Fin 32) (c c' : Fin 64) (p : Bool) :
    (f.setPixel r c p).pixel r' c' = if r' = r ∧ c' = c then p else f.pixel r' c' := by
  unfold Framebuffer.pixel Framebuffer.setPixel
  by_cases hr : r.val = r'.val
  · have hr' : r' = r := Fin.ext hr.symm
    subst hr'
    by_cases hc : c.val = c'.val
    · have hc' : c' = c := Fin.ext hc.symm
      subst hc'
      simp
    · have hc' : ¬ c' = c := fun e => hc (by rw [e])
      simp [hc, hc']
  · have hr' : ¬ r' = r := fun e => hr (by rw [e])
    simp [hr, hr']

@[simp] theorem Framebuffer.pixel_blank (r : Fin 32) (c : Fin 64) : Framebuffer.blank.pixel r c = false := by
  simp [Framebuffer.pixel, Framebuffer.blank]

/-! ## Faults, skips and flags -/

/-- R193: raising a fault latches its kind and answers a next state. -/
@[simp] theorem raise_eq (f : Fault) (s : State) : raise f s = .next (s.setFault f) := rfl

/-- R43, R44: when a block access is allowed. -/
theorem blockFaults_eq_false {lowest a n : Nat} :
    blockFaults lowest a n = false ↔ n = 0 ∨ (lowest ≤ a ∧ a + n ≤ memSize) := by
  simp [blockFaults, memSize]
  omega

/-- R43, R44: when a block access raises the fault. -/
theorem blockFaults_eq_true {lowest a n : Nat} :
    blockFaults lowest a n = true ↔ n ≠ 0 ∧ (a < lowest ∨ a + n - 1 > 0xFFF) := by
  simp [blockFaults]

/-- R120: the result first, the flag last. -/
theorem reg_writeResultAndFlag (s : State) (x y : Nibble) (r : Byte) (f : Bool) :
    (writeResultAndFlag s x r f).reg y =
      if y = flagReg then flagByte f else if y = x then r else s.reg y := by
  simp [writeResultAndFlag, State.reg_setReg]

/-- R120: VF ends holding the flag, whatever the destination. -/
theorem reg_writeResultAndFlag_flag (s : State) (x : Nibble) (r : Byte) (f : Bool) :
    (writeResultAndFlag s x r f).reg 0xF = flagByte f := State.reg_setReg_self ..

/-- R120: any other destination ends holding the result. -/
theorem reg_writeResultAndFlag_result {s : State} {x : Nibble} {r : Byte} {f : Bool} (h : x ≠ 0xF) :
    (writeResultAndFlag s x r f).reg x = r := by
  rw [reg_writeResultAndFlag, if_neg (show x ≠ flagReg from h), if_pos rfl]

/-- R120: nothing but registers is written. -/
theorem writeResultAndFlag_eq (s : State) (x : Nibble) (r : Byte) (f : Bool) :
    writeResultAndFlag s x r f = { s with v := (writeResultAndFlag s x r f).v } := rfl

/-- R163: VF on a collision, and only then. -/
theorem reg_writeCollision (s : State) (collision : Bool) (y : Nibble) :
    (writeCollision s collision).reg y =
      if y = flagReg ∧ collision = true then collisionValue s.cfg.drawFlagMode (s.reg flagReg) else s.reg y := by
  cases collision <;> simp [writeCollision, State.reg_setReg]

/-- R163: nothing but registers is written. -/
theorem writeCollision_eq (s : State) (collision : Bool) :
    writeCollision s collision = { s with v := (writeCollision s collision).v } := by
  cases collision <;> rfl

/-- R100: a conditional skip changes `pc` alone. -/
theorem skipIf_eq (cond : Bool) (s : State) :
    skipIf cond s = s.setPc (if cond then s.pc + 2 else s.pc) := by
  cases cond <;> rfl

/-- R170: the match, on all 8 bits of the register. -/
theorem keyMatches_iff {s : State} {x : Nibble} :
    keyMatches s x = true ↔ ∃ k : Nibble, s.key = some k ∧ k.toNat = (s.reg x).toNat := by
  unfold keyMatches
  cases s.key with
  | none => simp
  | some k =>
    have hk : (k.setWidth 8).toNat = k.toNat := by simp; omega
    simp only [beq_iff_eq, ← BitVec.toNat_inj, hk, Option.some.injEq]
    exact ⟨fun h => ⟨k, rfl, h⟩, fun ⟨_, e, h⟩ => e ▸ h⟩

end Sys2Proof.Machine
end

