-- ==== Sys2Proof/Laws/Frames.lean ====
section
/-! SUPPORT. The frame of each shared operation: the parts of the state it may change. -/

namespace Sys2Proof.Machine

theorem changesOnly_refl (may : Part → Prop) (s : State) : changesOnly may s s := fun p _ => by
  cases p <;> rfl

theorem changesOnly_mono {may may' : Part → Prop} {s t : State} (h : changesOnly may s t)
    (hm : ∀ p, may p → may' p) : changesOnly may' s t := fun p hp => h p fun hq => hp (hm p hq)

theorem sameAt_trans {s t u : State} {p : Part} (h : sameAt s t p) (h' : sameAt t u p) : sameAt s u p := by
  cases p <;> exact Eq.trans h' h

theorem changesOnly_trans {may : Part → Prop} {s t u : State} (h : changesOnly may s t)
    (h' : changesOnly may t u) : changesOnly may s u := fun p hp => sameAt_trans (h p hp) (h' p hp)

theorem setReg_changesOnly (s : State) (x : Nibble) (b : Byte) :
    changesOnly (fun p => p = .reg x) s (s.setReg x b) := fun p hp => by
  cases p <;> first | rfl | exact State.reg_setReg_of_ne fun e => hp (by rw [e])

theorem setI_changesOnly (s : State) (a : Word) : changesOnly (fun p => p = .i) s (s.setI a) := fun p hp => by
  cases p <;> first | rfl | exact absurd rfl hp

theorem setPc_changesOnly (s : State) (a : Word) : changesOnly (fun p => p = .pc) s (s.setPc a) := fun p hp => by
  cases p <;> first | rfl | exact absurd rfl hp

theorem setDt_changesOnly (s : State) (b : Byte) : changesOnly (fun p => p = .dt) s (s.setDt b) := fun p hp => by
  cases p <;> first | rfl | exact absurd rfl hp

theorem setSt_changesOnly (s : State) (b : Byte) : changesOnly (fun p => p = .st) s (s.setSt b) := fun p hp => by
  cases p <;> first | rfl | exact absurd rfl hp

theorem setKey_changesOnly (s : State) (k : Option Nibble) :
    changesOnly (fun p => p = .key) s (s.setKey k) := fun p hp => by
  cases p <;> first | rfl | exact absurd rfl hp

theorem setFault_changesOnly (s : State) (f : Fault) :
    changesOnly (fun p => p = .fault) s (s.setFault f) := fun p hp => by
  cases p <;> first | rfl | exact absurd rfl hp

theorem setFb_changesOnly (s : State) (f : Framebuffer) :
    changesOnly (fun p => ∃ r c, p = .pixel r c) s (s.setFb f) := fun p hp => by
  cases p <;> first | rfl | exact absurd ⟨_, _, rfl⟩ hp

theorem writeBlock_changesOnly (s : State) (a : Nat) (bs : List Byte) :
    changesOnly (fun p => ∃ k, k < bs.length ∧ p = .byte (a + k)) s (s.writeBlock a bs) := fun p hp => by
  cases p with
  | byte a' =>
    refine State.readByte_writeBlock_outside s a a' bs fun h => hp ⟨a' - a, by omega, ?_⟩
    rw [Nat.add_sub_cancel' h.1]
  | _ => rw [State.writeBlock_eq]; rfl

theorem setRegsFrom_changesOnly (s : State) (k : Nat) (bs : List Byte) (h : k + bs.length ≤ 16) :
    changesOnly (fun p => ∃ j : Nibble, (k ≤ j.toNat ∧ j.toNat < k + bs.length) ∧ p = .reg j) s
      (s.setRegsFrom k bs) := fun p hp => by
  cases p with
  | reg x =>
    show (s.setRegsFrom k bs).reg x = s.reg x
    rw [State.reg_setRegsFrom s k bs x h, dif_neg fun hx => hp ⟨x, hx, rfl⟩]
  | _ => rw [State.setRegsFrom_eq]; rfl

theorem writeResultAndFlag_changesOnly (s : State) (x : Nibble) (r : Byte) (f : Bool) :
    changesOnly (fun p => p = .reg x ∨ p = .reg flagReg) s (writeResultAndFlag s x r f) :=
  changesOnly_trans (changesOnly_mono (setReg_changesOnly s x r) fun _ => .inl)
    (changesOnly_mono (setReg_changesOnly _ flagReg _) fun _ => .inr)

theorem writeCollision_changesOnly (s : State) (collision : Bool) :
    changesOnly (fun p => p = .reg flagReg) s (writeCollision s collision) := by
  cases collision
  · exact changesOnly_refl _ s
  · exact setReg_changesOnly s flagReg _

theorem push_changesOnly {s s' : State} {ret : Word} (h : s.push ret = some s') :
    changesOnly (fun p => p = .depth ∨ ∃ hd : s.depth.val < 16, p = .slot ⟨s.depth.val, hd⟩) s s' := by
  obtain ⟨hd, rfl⟩ := State.push_eq_some h
  intro p hp
  cases p with
  | depth => exact absurd (.inl rfl) hp
  | slot k =>
    have hk : s.depth.val ≠ k.val := fun e => hp (.inr ⟨hd, by rw [Part.slot.injEq]; exact Fin.ext e.symm⟩)
    simp [sameAt, hk]
  | _ => rfl

theorem pop_changesOnly {s s' : State} {ret : Word} (h : s.pop = some (ret, s')) :
    changesOnly (fun p => p = .depth) s s' := by
  obtain ⟨-, -, rfl⟩ := State.pop_eq_some h
  intro p hp
  cases p <;> first | rfl | exact absurd rfl hp

end Sys2Proof.Machine
end

