-- ==== Sys2Proof/Laws/Sequencer.lean ====
section
/-! SUPPORT. What a step can do, said once (R82 to R88). -/

namespace Sys2Proof.Machine

/-! ## One lemma per field per update -/

@[simp] theorem State.accept_v (s : State) (inp : StepInput) : (s.accept inp).v = s.v := rfl
@[simp] theorem State.accept_i (s : State) (inp : StepInput) : (s.accept inp).i = s.i := rfl
@[simp] theorem State.accept_pc (s : State) (inp : StepInput) : (s.accept inp).pc = s.pc := rfl
@[simp] theorem State.accept_stack (s : State) (inp : StepInput) : (s.accept inp).stack = s.stack := rfl
@[simp] theorem State.accept_depth (s : State) (inp : StepInput) : (s.accept inp).depth = s.depth := rfl
@[simp] theorem State.accept_dt (s : State) (inp : StepInput) : (s.accept inp).dt = s.dt := rfl
@[simp] theorem State.accept_st (s : State) (inp : StepInput) : (s.accept inp).st = s.st := rfl
@[simp] theorem State.accept_tLast (s : State) (inp : StepInput) : (s.accept inp).tLast = s.tLast := rfl
@[simp] theorem State.accept_mem (s : State) (inp : StepInput) : (s.accept inp).mem = s.mem := rfl
@[simp] theorem State.accept_key (s : State) (inp : StepInput) : (s.accept inp).key = s.key := rfl
@[simp] theorem State.accept_fb (s : State) (inp : StepInput) : (s.accept inp).fb = s.fb := rfl
@[simp] theorem State.accept_fault (s : State) (inp : StepInput) : (s.accept inp).fault = s.fault := rfl
@[simp] theorem State.accept_cfg (s : State) (inp : StepInput) : (s.accept inp).cfg = s.cfg := rfl
@[simp] theorem State.accept_input (s : State) (inp : StepInput) : (s.accept inp).input = inp := rfl
@[simp] theorem State.accept_draws (s : State) (inp : StepInput) : (s.accept inp).draws = s.draws := rfl

@[simp] theorem hostActs_v (s : State) : (hostActs s).v = s.v := rfl
@[simp] theorem hostActs_i (s : State) : (hostActs s).i = s.i := rfl
@[simp] theorem hostActs_pc (s : State) : (hostActs s).pc = s.pc := rfl
@[simp] theorem hostActs_stack (s : State) : (hostActs s).stack = s.stack := rfl
@[simp] theorem hostActs_depth (s : State) : (hostActs s).depth = s.depth := rfl
@[simp] theorem hostActs_dt (s : State) : (hostActs s).dt = s.dt := rfl
@[simp] theorem hostActs_st (s : State) : (hostActs s).st = s.st := rfl
@[simp] theorem hostActs_tLast (s : State) : (hostActs s).tLast = s.tLast := rfl
@[simp] theorem hostActs_mem (s : State) : (hostActs s).mem = s.mem := rfl
@[simp] theorem hostActs_key (s : State) : (hostActs s).key = drawKey s := rfl
@[simp] theorem hostActs_fb (s : State) : (hostActs s).fb = s.fb := rfl
@[simp] theorem hostActs_fault (s : State) : (hostActs s).fault = s.fault := rfl
@[simp] theorem hostActs_cfg (s : State) : (hostActs s).cfg = s.cfg := rfl
@[simp] theorem hostActs_input (s : State) : (hostActs s).input = s.input := rfl
@[simp] theorem hostActs_draws (s : State) : (hostActs s).draws = s.draws + 1 := rfl

/-! ## The environment's draws (R81, R89) -/

/-- R81: `now` is "never less than any earlier `now` and never less than the reset time". -/
theorem drawInput_now_ge (s : State) : s.input.now ≤ (drawInput s).now := le_max_left _ _

/-- R81 constrains `now` by nothing else: a proposed time that is not too early is the step's time. -/
theorem drawInput_now_eq (s : State) (h : s.input.now ≤ Config.freeNow s.draws) :
    (drawInput s).now = Config.freeNow s.draws := max_eq_right h

/-- R89: "if the host did nothing since the last step, it equals the value the last step left". -/
theorem drawKey_of_idle (s : State) (h : Config.freeKey s.draws = none) : drawKey s = s.key := by
  rw [drawKey, h]; rfl

/-- R89: "the latch holds the last value written". -/
theorem drawKey_of_written (s : State) (v : Option Nibble) (h : Config.freeKey s.draws = some v) : drawKey s = v := by
  rw [drawKey, h]; rfl

/-- R89: what the host does between two steps is SETKEY, and the model's own counter of draws moves on. -/
theorem hostActs_eq (s : State) : hostActs s = { s.setKey (drawKey s) with draws := s.draws + 1 } := rfl

/-- The host's key write touches nothing that a fetch looks at. -/
theorem hostActs_fetches (s : State) (w : Word) : (hostActs s).Fetches w ↔ s.Fetches w :=
  ⟨fun h => ⟨h.noFault, h.low, h.high, h.bytes⟩, fun h => ⟨h.noFault, h.low, h.high, h.bytes⟩⟩

/-! ## The phases of a step -/

/-- R86's own form of the timer sync's condition. -/
theorem tickDue_iff (now last : Rat) : tickDue now last = true ↔ now - last ≥ 1 / 60 := by
  simp only [tickDue, decide_eq_true_eq]
  have h₁ : (0 : ℚ) < now.den := by exact_mod_cast now.den_pos
  have h₂ : (0 : ℚ) < last.den := by exact_mod_cast last.den_pos
  have e₁ : now = now.num / now.den := (Rat.num_div_den now).symm
  have e₂ : last = last.num / last.den := (Rat.num_div_den last).symm
  have e₃ : now - last = (now.num * last.den - last.num * now.den) / (now.den * last.den) := by
    conv_lhs => rw [e₁, e₂]
    field_simp
  rw [e₃, ge_iff_le, div_le_div_iff₀ (by norm_num) (by positivity), one_mul]
  constructor <;> intro h
  · have h₃ : (((now.den * last.den : Nat) : Int) : ℚ)
        ≤ ((60 * (now.num * last.den - last.num * now.den) : Int) : ℚ) := by exact_mod_cast h
    push_cast at h₃
    linarith
  · have h₃ : (((now.den * last.den : Nat) : Int) : ℚ)
        ≤ ((60 * (now.num * last.den - last.num * now.den) : Int) : ℚ) := by
      push_cast
      linarith
    exact_mod_cast h₃

/-- R86: the timer sync writes the two timers and `t_last`, nothing else. -/
theorem timerSync_eq (s : State) :
    timerSync s = { s with dt := (timerSync s).dt, st := (timerSync s).st, tLast := (timerSync s).tLast } := rfl

/-- R86: "decrement each nonzero timer by 1 (floor at 0)" when due, no change otherwise. -/
theorem tickTimer_toNat (due : Bool) (t : Byte) :
    (tickTimer due t).toNat = if due then t.toNat - 1 else t.toNat := by
  unfold tickTimer
  by_cases h : t = 0
  · subst h; cases due <;> rfl
  · have h₁ : t.toNat ≠ 0 := fun e => h (BitVec.eq_of_toNat_eq e)
    have h₂ := t.isLt
    rw [if_neg h]
    cases due
    · rfl
    · rw [if_pos rfl, if_pos rfl, BitVec.toNat_sub]
      show (2 ^ 8 - 1 + t.toNat) % 2 ^ 8 = _
      omega

/-- The two bytes of the fetch as one word (R84). -/
theorem fetchBytes_eq (s : State) :
    fetchBytes s = [s.readByte s.pc.toNat, s.readByte (s.pc.toNat + 1)] := rfl

theorem decodeBytes_pair (exitWord : Word) (hi lo : Byte) :
    decodeBytes exitWord [hi, lo] = (decodeWord exitWord (hi ++ lo)).map fun i => (i, []) := by
  simp only [decodeBytes, wordOfBytes]
  cases decodeWord exitWord (hi ++ lo) <;> rfl

/-- Everything a step can do: a latched fault holds the machine still (R82); the range check and the fetch fault
before anything changes (R83, R84); a word that is no instruction faults with `pc` advanced (R85); otherwise the
decoded instruction runs on the state with `pc` advanced, and the timer sync ends the step (R86). -/
theorem stepWith_cases (inp : StepInput) (s : State) :
    (s.fault ≠ none ∧ stepWith inp s = .next s) ∨
    (s.fault = none ∧ ¬ (0x200 ≤ s.pc.toNat ∧ s.pc.toNat ≤ 0xFFE) ∧
      stepWith inp s = .next (s.setFault .memoryProtection)) ∨
    (∃ w e, s.Fetches w ∧ decodeWord s.cfg.exitWord w = .error e ∧
      stepWith inp s = .next ((advance (s.accept inp)).setFault .decode)) ∨
    (∃ w i, s.Fetches w ∧ decodeWord s.cfg.exitWord w = .ok i ∧
      stepWith inp s = finishStep (exec i (advance (s.accept inp)))) := by
  by_cases hf : s.fault = none
  · by_cases hr : 0x200 ≤ s.pc.toNat ∧ s.pc.toNat ≤ 0xFFE
    · have hw : s.Fetches (s.readByte s.pc.toNat ++ s.readByte (s.pc.toNat + 1)) := ⟨hf, hr.1, hr.2, rfl⟩
      have hs : stepWith inp s = dispatch (advance (s.accept inp)) (fetchBytes s) := by
        have h₁ : s.pc.toNat ≤ 0xFFF := by omega
        have h₂ : s.pc.toNat + 1 ≤ 0xFFF := by omega
        simp only [stepWith, hf, pcInRange, fetchInRange, progBase, hr.1, h₁, h₂]
        rfl
      rw [hs, dispatch, fetchBytes_eq, decodeBytes_pair]
      refine .inr (.inr ?_)
      cases hd : decodeWord s.cfg.exitWord (s.readByte s.pc.toNat ++ s.readByte (s.pc.toNat + 1)) with
      | error e => exact .inl ⟨_, e, hw, hd, by rw [show (advance (s.accept inp)).cfg = s.cfg from rfl, hd]; rfl⟩
      | ok i => exact .inr ⟨_, i, hw, hd, by rw [show (advance (s.accept inp)).cfg = s.cfg from rfl, hd]; rfl⟩
    · refine .inr (.inl ⟨hf, hr, ?_⟩)
      simp only [stepWith, hf, pcInRange, fetchInRange, progBase]
      by_cases h₁ : 0x200 ≤ s.pc.toNat <;> by_cases h₂ : s.pc.toNat ≤ 0xFFF <;> simp [h₁, h₂]
      omega
  · refine .inl ⟨hf, ?_⟩
    simp [stepWith, Option.isSome_iff_ne_none.mpr hf]

end Sys2Proof.Machine
end

