-- ==== Sys2Proof/Laws/Exec.lean ====
section
/-! SUPPORT. What an instruction can do, said once: the parts of the state that each instruction may change. -/

namespace Sys2Proof.Machine

/-- The parts that an instruction may change, in some state (spec/41_control_flow.md R100, spec/42_load_alu.md R120,
spec/43_index_memory.md R140, R147, spec/44_display.md R161, R162, spec/45_keys_timers_random.md R170). -/
def mayChange : Instr → Part → Prop
  | .cls, p => ∃ r c, p = .pixel r c
  | .ret, p => p = .pc ∨ p = .depth ∨ p = .fault
  | .call _, p => p = .pc ∨ p = .depth ∨ p = .fault ∨ ∃ k, p = .slot k
  | .exit, p | .jp _, p | .jpV0 _, p => p = .pc
  | .seImm _ _, p | .sneImm _ _, p | .seReg _ _, p | .sneReg _ _, p => p = .pc
  | .ldImm x _, p | .addImm x _, p | .rnd x _, p => p = .reg x
  | .ldReg x _, p | .orReg x _, p | .andReg x _, p | .xorReg x _, p | .ldVxDt x, p => p = .reg x
  | .addReg x _, p | .subReg x _, p | .shr x _, p | .subnReg x _, p | .shl x _, p => p = .reg x ∨ p = .reg flagReg
  | .ldI _, p | .addI _, p | .ldF _, p => p = .i
  | .ldB _, p | .storeRegs _, p => p = .fault ∨ ∃ a, progBase ≤ a ∧ p = .byte a
  | .loadRegs x, p => p = .fault ∨ ∃ j : Nibble, j.toNat ≤ x.toNat ∧ p = .reg j
  | .drw _ _ _, p => p = .fault ∨ p = .reg flagReg ∨ ∃ r c, p = .pixel r c
  | .skp _, p | .sknp _, p => p = .pc ∨ p = .key
  | .ldVxK x, p => p = .pc ∨ p = .key ∨ p = .reg x
  | .ldDtVx _, p => p = .dt
  | .ldStVx _, p => p = .st

/-- Two frames, one after the other. -/
theorem changesOnly_seq {may may' may'' : Part → Prop} {s t u : State} (h : changesOnly may s t)
    (h' : changesOnly may' t u) (hm : ∀ p, may p ∨ may' p → may'' p) : changesOnly may'' s u :=
  changesOnly_trans (changesOnly_mono h fun p hp => hm p (.inl hp)) (changesOnly_mono h' fun p hp => hm p (.inr hp))

theorem skipIf_changesOnly (cond : Bool) (s : State) : changesOnly (fun p => p = .pc) s (skipIf cond s) := by
  rw [skipIf_eq]
  exact setPc_changesOnly s _

theorem fault_changesOnly {may : Part → Prop} {s : State} {f : Fault} (h : may .fault) :
    changesOnly may s (s.setFault f) :=
  changesOnly_mono (setFault_changesOnly s f) fun p hp => by rw [hp]; exact h

theorem storeBlock_changesOnly {s : State} {bs : List Byte} (h : blockFaults progBase (indexAddr s) bs.length = false) :
    changesOnly (fun p => p = .fault ∨ ∃ a, progBase ≤ a ∧ p = .byte a) s (s.writeBlock (indexAddr s) bs) := by
  refine changesOnly_mono (writeBlock_changesOnly s _ bs) fun p => ?_
  rintro ⟨k, hk, rfl⟩
  rcases blockFaults_eq_false.mp h with h | h
  · omega
  · exact .inr ⟨_, by omega, rfl⟩

/-- Everything outside `mayChange` is unchanged by an instruction that answers a next state. -/
theorem exec_changesOnly {i : Instr} {s t : State} (h : exec i s = .next t) : changesOnly (mayChange i) s t := by
  cases i with
  | cls => cases h; exact setFb_changesOnly s _
  | ret =>
    simp only [exec, execRet] at h
    split at h
    next => cases h; exact fault_changesOnly (.inr (.inr rfl))
    next hp =>
      cases h
      refine changesOnly_seq (pop_changesOnly hp) (setPc_changesOnly _ _) fun p => ?_
      rintro (h | h) <;> simp [mayChange, h]
  | exit => cases h; exact setPc_changesOnly s _
  | jp nnn => cases h; exact setPc_changesOnly s _
  | call nnn =>
    simp only [exec, execCall] at h
    split at h
    next => cases h; exact fault_changesOnly (.inr (.inr (.inl rfl)))
    next hp =>
      cases h
      refine changesOnly_seq (push_changesOnly hp) (setPc_changesOnly _ _) fun p => ?_
      rintro ((h | ⟨_, h⟩) | h) <;> simp [mayChange, h]
  | seImm x kk => cases h; exact skipIf_changesOnly _ s
  | sneImm x kk => cases h; exact skipIf_changesOnly _ s
  | seReg x y => cases h; exact skipIf_changesOnly _ s
  | sneReg x y => cases h; exact skipIf_changesOnly _ s
  | jpV0 nnn => cases h; exact setPc_changesOnly s _
  | ldImm x kk => cases h; exact setReg_changesOnly s x _
  | addImm x kk => cases h; exact setReg_changesOnly s x _
  | ldReg x y => cases h; exact setReg_changesOnly s x _
  | orReg x y => cases h; exact setReg_changesOnly s x _
  | andReg x y => cases h; exact setReg_changesOnly s x _
  | xorReg x y => cases h; exact setReg_changesOnly s x _
  | addReg x y => cases h; exact writeResultAndFlag_changesOnly s x _ _
  | subReg x y => cases h; exact writeResultAndFlag_changesOnly s x _ _
  | shr x y => cases h; exact writeResultAndFlag_changesOnly s x _ _
  | subnReg x y => cases h; exact writeResultAndFlag_changesOnly s x _ _
  | shl x y => cases h; exact writeResultAndFlag_changesOnly s x _ _
  | ldI nnn => cases h; exact setI_changesOnly s _
  | addI x => cases h; exact setI_changesOnly s _
  | ldF x => cases h; exact setI_changesOnly s _
  | ldB x =>
    simp only [exec, execLdB] at h
    split at h
    next => cases h; exact fault_changesOnly (.inl rfl)
    next hf => cases h; exact storeBlock_changesOnly (Bool.eq_false_iff.mpr hf)
  | storeRegs x =>
    simp only [exec, execStoreRegs] at h
    split at h
    next => cases h; exact fault_changesOnly (.inl rfl)
    next hf => cases h; exact storeBlock_changesOnly (by simpa using hf)
  | loadRegs x =>
    simp only [exec, execLoadRegs] at h
    split at h
    next => cases h; exact fault_changesOnly (.inl rfl)
    next =>
      cases h
      have hx := x.isLt
      refine changesOnly_mono (setRegsFrom_changesOnly s 0 _ (by simp [bulkCount]; omega)) fun p => ?_
      rintro ⟨j, hj, rfl⟩
      simp only [State.length_readBlock, bulkCount] at hj
      exact .inr ⟨j, by omega, rfl⟩
  | drw x y n =>
    simp only [exec, execDrw] at h
    split at h
    next => cases h; exact fault_changesOnly (.inl rfl)
    next =>
      cases h
      refine changesOnly_seq (setFb_changesOnly s _) (writeCollision_changesOnly _ _) fun p => ?_
      rintro (h | h)
      · exact .inr (.inr h)
      · exact .inr (.inl h)
  | rnd x kk => cases h; exact setReg_changesOnly s x _
  | skp x =>
    cases h
    split
    · exact changesOnly_seq (setPc_changesOnly s _) (setKey_changesOnly _ _) fun _ => id
    · exact changesOnly_refl _ s
  | sknp x =>
    cases h
    split
    · exact changesOnly_mono (setKey_changesOnly s _) fun _ => .inr
    · exact changesOnly_mono (setPc_changesOnly s _) fun _ => .inl
  | ldVxDt x => cases h; exact setReg_changesOnly s x _
  | ldVxK x =>
    cases h
    split
    next => exact changesOnly_mono (setPc_changesOnly s _) fun _ => .inl
    next =>
      refine changesOnly_seq (setReg_changesOnly s x _) (setKey_changesOnly _ _) fun p => ?_
      rintro (h | h) <;> simp [mayChange, h]
  | ldDtVx x => cases h; exact setDt_changesOnly s _
  | ldStVx x => cases h; exact setSt_changesOnly s _

end Sys2Proof.Machine
end

