-- ==== Sys2Proof/Laws/PerInstr.lean ====
section
/-! SUPPORT. Statements made per instruction. FitsRow: the encoder's word has the fixed bits that the instruction's
row of spec/opcode_table.json gives, whatever the operands and EXIT_WORD are. -/

/-- The encoded word agrees with its row of the opcode table on every fixed bit (spec/30_encoding.md R65 to R69). -/
def Sys2Proof.Laws.FitsRow.Statement (i : Sys2Proof.Instr) : Prop :=
  ∀ exitWord : Sys2Proof.Word,
    Sys2Proof.encode exitWord i &&& (i.row exitWord).mask = (i.row exitWord).value

namespace Sys2Proof.Laws

open Sys2Proof

theorem FitsRow.cls : FitsRow.Statement .cls := fun e => BitVec.and_allOnes (x := encode e .cls)
theorem FitsRow.ret : FitsRow.Statement .ret := fun e => BitVec.and_allOnes (x := encode e .ret)
theorem FitsRow.exit : FitsRow.Statement .exit := fun e => BitVec.and_allOnes (x := encode e .exit)
theorem FitsRow.jp (nnn : Addr) : FitsRow.Statement (.jp nnn) := fun _ => formatA_mask _ nnn
theorem FitsRow.call (nnn : Addr) : FitsRow.Statement (.call nnn) := fun _ => formatA_mask _ nnn
theorem FitsRow.seImm (x : Nibble) (kk : Byte) : FitsRow.Statement (.seImm x kk) := fun _ => formatXK_mask _ x kk
theorem FitsRow.sneImm (x : Nibble) (kk : Byte) : FitsRow.Statement (.sneImm x kk) := fun _ => formatXK_mask _ x kk
theorem FitsRow.seReg (x y : Nibble) : FitsRow.Statement (.seReg x y) := fun _ => formatXY_mask _ x y _
theorem FitsRow.ldImm (x : Nibble) (kk : Byte) : FitsRow.Statement (.ldImm x kk) := fun _ => formatXK_mask _ x kk
theorem FitsRow.addImm (x : Nibble) (kk : Byte) : FitsRow.Statement (.addImm x kk) := fun _ => formatXK_mask _ x kk
theorem FitsRow.ldReg (x y : Nibble) : FitsRow.Statement (.ldReg x y) := fun _ => formatXY_mask _ x y _
theorem FitsRow.orReg (x y : Nibble) : FitsRow.Statement (.orReg x y) := fun _ => formatXY_mask _ x y _
theorem FitsRow.andReg (x y : Nibble) : FitsRow.Statement (.andReg x y) := fun _ => formatXY_mask _ x y _
theorem FitsRow.xorReg (x y : Nibble) : FitsRow.Statement (.xorReg x y) := fun _ => formatXY_mask _ x y _
theorem FitsRow.addReg (x y : Nibble) : FitsRow.Statement (.addReg x y) := fun _ => formatXY_mask _ x y _
theorem FitsRow.subReg (x y : Nibble) : FitsRow.Statement (.subReg x y) := fun _ => formatXY_mask _ x y _
theorem FitsRow.shr (x y : Nibble) : FitsRow.Statement (.shr x y) := fun _ => formatXY_mask _ x y _
theorem FitsRow.subnReg (x y : Nibble) : FitsRow.Statement (.subnReg x y) := fun _ => formatXY_mask _ x y _
theorem FitsRow.shl (x y : Nibble) : FitsRow.Statement (.shl x y) := fun _ => formatXY_mask _ x y _
theorem FitsRow.sneReg (x y : Nibble) : FitsRow.Statement (.sneReg x y) := fun _ => formatXY_mask _ x y _
theorem FitsRow.ldI (nnn : Addr) : FitsRow.Statement (.ldI nnn) := fun _ => formatA_mask _ nnn
theorem FitsRow.jpV0 (nnn : Addr) : FitsRow.Statement (.jpV0 nnn) := fun _ => formatA_mask _ nnn
theorem FitsRow.rnd (x : Nibble) (kk : Byte) : FitsRow.Statement (.rnd x kk) := fun _ => formatXK_mask _ x kk
theorem FitsRow.drw (x y n : Nibble) : FitsRow.Statement (.drw x y n) := fun _ => formatXYN_mask _ x y n
theorem FitsRow.skp (x : Nibble) : FitsRow.Statement (.skp x) := fun _ => formatX_mask _ x _
theorem FitsRow.sknp (x : Nibble) : FitsRow.Statement (.sknp x) := fun _ => formatX_mask _ x _
theorem FitsRow.ldVxDt (x : Nibble) : FitsRow.Statement (.ldVxDt x) := fun _ => formatX_mask _ x _
theorem FitsRow.ldVxK (x : Nibble) : FitsRow.Statement (.ldVxK x) := fun _ => formatX_mask _ x _
theorem FitsRow.ldDtVx (x : Nibble) : FitsRow.Statement (.ldDtVx x) := fun _ => formatX_mask _ x _
theorem FitsRow.ldStVx (x : Nibble) : FitsRow.Statement (.ldStVx x) := fun _ => formatX_mask _ x _
theorem FitsRow.addI (x : Nibble) : FitsRow.Statement (.addI x) := fun _ => formatX_mask _ x _
theorem FitsRow.ldF (x : Nibble) : FitsRow.Statement (.ldF x) := fun _ => formatX_mask _ x _
theorem FitsRow.ldB (x : Nibble) : FitsRow.Statement (.ldB x) := fun _ => formatX_mask _ x _
theorem FitsRow.storeRegs (x : Nibble) : FitsRow.Statement (.storeRegs x) := fun _ => formatX_mask _ x _
theorem FitsRow.loadRegs (x : Nibble) : FitsRow.Statement (.loadRegs x) := fun _ => formatX_mask _ x _

end Sys2Proof.Laws
end

