-- ==== Sys2Proof/Laws/Run.lean ====
section
/-! SUPPORT. Where a run ends (spec/40_step_cycle.md R93): its first over state is one, and nothing the host does later
changes it. -/

namespace Sys2Proof.Machine

/-- R93: "ends normally iff `halted` is true and `fault = none`". -/
theorem howEnded_eq_normally (s : State) : s.howEnded = .normally ↔ s.halted = true ∧ s.fault = none := by
  unfold State.howEnded
  cases s.halted <;> cases s.fault <;> simp

theorem runOver_eq_true (s : State) : s.runOver = true ↔ s.halted = true ∨ s.fault ≠ none := by
  unfold State.runOver
  cases s.halted <;> cases s.fault <;> simp

/-- An over state is its own first over state. -/
theorem firstOver_of_runOver (ts : List Transaction) (s : State) (h : s.runOver = true) : firstOver ts s = some s := by
  cases ts <;> simp [firstOver, h]

/-- Before the run is over, the first over state is that of the next state on. -/
theorem firstOver_cons (t : Transaction) (ts : List Transaction) (s s' : State) (h : s.runOver = false)
    (ht : transact t s = .next s') : firstOver (t :: ts) s = firstOver ts s' := by
  simp [firstOver, h, ht]

/-- The first over state is an over state. -/
theorem runOver_of_firstOver {ts : List Transaction} {s u : State} (h : firstOver ts s = some u) :
    u.runOver = true := by
  induction ts generalizing s with
  | nil =>
    simp only [firstOver, Option.ite_none_right_eq_some, Option.some.injEq] at h
    exact h.2 ▸ h.1
  | cons t ts ih =>
    simp only [firstOver] at h
    split at h
    next ho => exact Option.some.inj h ▸ ho
    next =>
      split at h
      · exact ih h
      · cases h

/-- What the host does after the run is over does not change its first over state. -/
theorem firstOver_append {ts : List Transaction} {s u : State} (h : firstOver ts s = some u)
    (later : List Transaction) : firstOver (ts ++ later) s = some u := by
  induction ts generalizing s with
  | nil =>
    simp only [firstOver, Option.ite_none_right_eq_some, Option.some.injEq] at h
    rw [List.nil_append, firstOver_of_runOver later s h.1, h.2]
  | cons t ts ih =>
    simp only [firstOver, List.cons_append] at h ⊢
    split at h
    next ho => rw [if_pos ho]; exact h
    next ho =>
      rw [if_neg ho]
      split at h
      next hs => simp only [ih h]
      next => cases h

/-- So how a run ended stays as it is when the run is continued. -/
theorem endOfRun_append {ts later : List Transaction} {s : State} {e : RunEnd} (h : endOfRun ts s = some e)
    (hr : isRun (ts ++ later) = true) : endOfRun (ts ++ later) s = some e := by
  unfold endOfRun at h
  split at h
  next now rest =>
    split at h
    next =>
      obtain ⟨u, hu, he⟩ := Option.map_eq_some_iff.mp h
      simp only [endOfRun, List.cons_append] at hr ⊢
      rw [if_pos hr, firstOver_append hu later, Option.map_some, he]
    next => cases h
  next => cases h

/-- A sequence of STEP and SETKEY is in order once LOAD is done. -/
theorem inOrderFrom_running {ts : List Transaction} (h : ts.all Transaction.isStepOrKey = true) :
    inOrderFrom .running ts = true := by
  induction ts with
  | nil => rfl
  | cons t ts ih =>
    simp only [List.all_cons, Bool.and_eq_true] at h
    cases t with
    | reset now => cases h.1
    | load image => cases h.1
    | setKey v => exact ih h.2
    | step inp => exact ih h.2

/-- A run keeps the host's order (R80) and R81's monotonicity. -/
theorem isRun_keepsContract {ts : List Transaction} (h : isRun ts = true) :
    inOrder ts = true ∧ monotonic ts = true := by
  match ts, h with
  | .reset now :: .load image :: ts, h =>
    simp only [isRun, Bool.and_eq_true, decide_eq_true_eq] at h
    refine ⟨?_, h.2⟩
    simp only [inOrder, inOrderFrom, HostPhase.after, if_pos h.1.1]
    exact inOrderFrom_running h.1.2

end Sys2Proof.Machine
end

