-- ==== Sys2Proof/Laws/Time.lean ====
section
/-! SUPPORT. Rational times lose no behaviour (notes/assumptions/4). Time enters the machine only through comparisons
of two times and the timer sync's `now - t_last >= 1/60` (spec/40_step_cycle.md R81, R86). For any finite run's real
times there are rational times with the same order and the same answers to that test. -/

namespace Sys2Proof.Machine

/-- One grid that separates finitely many real numbers below a bound from it: some multiple of 60 steps per second is
fine enough that every difference below 1/60 s stays a whole step below it. -/
theorem exists_fine_grid (times : List ℝ) :
    ∃ n : ℕ, 0 < n ∧ ∀ a ∈ times, ∀ b ∈ times, b - a < 1 / 60 → (60 * n : ℝ) * (b - a) + 1 ≤ n := by
  have key : ∀ l : List (ℝ × ℝ),
      ∃ n : ℕ, 0 < n ∧ ∀ p ∈ l, p.2 - p.1 < 1 / 60 → (60 * n : ℝ) * (p.2 - p.1) + 1 ≤ n := by
    intro l
    induction l with
    | nil => exact ⟨1, Nat.one_pos, by simp⟩
    | cons p l ih =>
      obtain ⟨n, hn, h⟩ := ih
      obtain ⟨m, hm⟩ := exists_nat_gt (1 / (1 - 60 * (p.2 - p.1)))
      have weaken : ∀ (d : ℝ) (k k' : ℕ), k ≤ k' → d < 1 / 60 → (60 * k : ℝ) * d + 1 ≤ k →
          (60 * k' : ℝ) * d + 1 ≤ k' := by
        intro d k k' hk hd h
        have h₁ : (k : ℝ) ≤ k' := by exact_mod_cast hk
        nlinarith [mul_nonneg (sub_nonneg.mpr h₁) (show (0 : ℝ) ≤ 1 - 60 * d by linarith)]
      refine ⟨max n m, lt_of_lt_of_le hn (le_max_left _ _), fun q hq hd => ?_⟩
      rcases List.mem_cons.mp hq with rfl | hq
      · refine weaken _ m _ (le_max_right _ _) hd ?_
        have hpos : 0 < 1 - 60 * (q.2 - q.1) := by linarith
        have := (div_lt_iff₀ hpos).mp hm
        linarith
      · exact weaken _ n _ (le_max_left _ _) hd (h q hq hd)
  obtain ⟨n, hn, h⟩ := key (times ×ˢ times)
  exact ⟨n, hn, fun a ha b hb => h (a, b) (List.mem_product.mpr ⟨ha, hb⟩)⟩

/-- For finitely many real times there are rational times in the same order, and with the same answer to the timer
sync's test between every two of them. -/
theorem rational_times_suffice (times : List ℝ) :
    ∃ q : ℝ → ℚ, (∀ a b, a ≤ b → q a ≤ q b) ∧
      ∀ last ∈ times, ∀ now ∈ times, (now - last ≥ 1 / 60 ↔ tickDue (q now) (q last) = true) := by
  obtain ⟨n, hn, h⟩ := exists_fine_grid times
  have hpos : (0 : ℚ) < 60 * n := by positivity
  refine ⟨fun a => ⌊(60 * n : ℝ) * a⌋ / (60 * n), fun a b hab => ?_, fun a ha b hb => ?_⟩
  · refine div_le_div_of_nonneg_right ?_ hpos.le
    exact_mod_cast Int.floor_le_floor (mul_le_mul_of_nonneg_left hab (by positivity))
  · rw [tickDue_iff]
    have grid : (⌊(60 * n : ℝ) * b⌋ / (60 * n) - ⌊(60 * n : ℝ) * a⌋ / (60 * n) : ℚ) ≥ 1 / 60 ↔
        ⌊(60 * n : ℝ) * a⌋ + n ≤ ⌊(60 * n : ℝ) * b⌋ := by
      rw [← sub_div, ge_iff_le, le_div_iff₀ hpos, show (1 / 60 * (60 * n) : ℚ) = n by ring, le_sub_iff_add_le']
      exact_mod_cast Iff.rfl
    rw [grid]
    constructor
    · intro hd
      have e : ⌊(60 * n : ℝ) * a⌋ + (n : ℤ) = ⌊(60 * n : ℝ) * a + n⌋ := (Int.floor_add_natCast _ _).symm
      rw [e]
      refine Int.floor_le_floor ?_
      nlinarith [mul_le_mul_of_nonneg_left hd (show (0 : ℝ) ≤ 60 * n by positivity)]
    · intro hf
      by_contra hd
      have h₁ := h a ha b hb (not_le.mp hd)
      have h₂ := Int.floor_le ((60 * n : ℝ) * b)
      have h₃ := Int.lt_floor_add_one ((60 * n : ℝ) * a)
      have h₄ : ((⌊(60 * n : ℝ) * a⌋ : ℝ) + n) ≤ ⌊(60 * n : ℝ) * b⌋ := by exact_mod_cast hf
      linarith

end Sys2Proof.Machine
end

