-- ==== Sys2Proof/Tests/Slice0.lean ====
section
/-! SUPPORT. The model's own tests. Expected values come from spec/95_test_vectors.md (vectors T<n>, examples S<n>) or
are worked out by hand from the rule named; the witnesses at the end meet the hypotheses of the statements. -/

namespace Sys2Proof.Tests

open Sys2Proof Sys2Proof.Machine

/-! ## Well-formedness: a term for each check, which the check refuses (spec/00_scope.md R5) -/

theorem test_default_config_wellFormed : defaultConfig.wellFormed = true := by decide

theorem test_exit_word_cls_refused : { defaultConfig with exitWord := 0x00E0 }.wellFormed = false := by decide

theorem test_exit_word_ret_refused : { defaultConfig with exitWord := 0x00EE }.wellFormed = false := by decide

theorem test_exit_word_top_nibble_refused : { defaultConfig with exitWord := 0x1000 }.wellFormed = false := by decide

theorem test_font_base_refused : { defaultConfig with fontBase := 0x1B1 }.wellFormed = false := by decide

theorem test_font_base_highest_accepted : { defaultConfig with fontBase := 0x1B0 }.wellFormed = true := by decide

theorem test_font_low_nibble_refused :
    { defaultConfig with fontGlyphs := defaultFontGlyphs.set 15 #v[0xF0, 0x80, 0xF0, 0x80, 0x81] }.wellFormed
      = false := by decide

theorem test_init_mem_address_refused : { defaultConfig with initMem := [(4096, 1)] }.wellFormed = false := by decide

/-! ## Decoding: a word written out bit by bit for every constructor (spec/30_encoding.md R65 to R69) -/

theorem test_decode_family0 :
    decodeWord 0x00FD 0b0000000011100000 = .ok .cls ∧ decodeWord 0x00FD 0b0000000011101110 = .ok .ret ∧
    decodeWord 0x00FD 0b0000000011111101 = .ok .exit ∧ decodeWord 0x0000 0b0000000000000000 = .ok .exit := by decide

theorem test_decode_jumps :
    decodeWord 0x00FD 0b0001101010111100 = .ok (.jp 0xABC) ∧ decodeWord 0x00FD 0b0010001000001010 = .ok (.call 0x20A) ∧
    decodeWord 0x00FD 0b1011001100000000 = .ok (.jpV0 0x300) := by decide

theorem test_decode_skips :
    decodeWord 0x00FD 0b0011000100000010 = .ok (.seImm 1 0x02) ∧
    decodeWord 0x00FD 0b0100001000010001 = .ok (.sneImm 2 0x11) ∧
    decodeWord 0x00FD 0b0101001101000000 = .ok (.seReg 3 4) ∧
    decodeWord 0x00FD 0b1001010101100000 = .ok (.sneReg 5 6) := by decide

theorem test_decode_load_immediate :
    decodeWord 0x00FD 0b0110000010011100 = .ok (.ldImm 0 0x9C) ∧
    decodeWord 0x00FD 0b0111000111111111 = .ok (.addImm 1 0xFF) := by decide

theorem test_decode_family8 :
    decodeWord 0x00FD 0b1000111011110000 = .ok (.ldReg 0xE 0xF) ∧
    decodeWord 0x00FD 0b1000000100100001 = .ok (.orReg 1 2) ∧
    decodeWord 0x00FD 0b1000000100100010 = .ok (.andReg 1 2) ∧
    decodeWord 0x00FD 0b1000000100100011 = .ok (.xorReg 1 2) ∧
    decodeWord 0x00FD 0b1000000100100100 = .ok (.addReg 1 2) ∧
    decodeWord 0x00FD 0b1000000100100101 = .ok (.subReg 1 2) ∧
    decodeWord 0x00FD 0b1000000100100110 = .ok (.shr 1 2) ∧
    decodeWord 0x00FD 0b1000000100100111 = .ok (.subnReg 1 2) ∧
    decodeWord 0x00FD 0b1000000100101110 = .ok (.shl 1 2) := by decide

theorem test_decode_index_random_draw :
    decodeWord 0x00FD 0b1010001100000000 = .ok (.ldI 0x300) ∧
    decodeWord 0x00FD 0b1100000000001111 = .ok (.rnd 0 0x0F) ∧
    decodeWord 0x00FD 0b1101000100100101 = .ok (.drw 1 2 5) := by decide

theorem test_decode_familyE :
    decodeWord 0x00FD 0b1110011110011110 = .ok (.skp 7) ∧ decodeWord 0x00FD 0b1110100010100001 = .ok (.sknp 8) := by
  decide

theorem test_decode_familyF :
    decodeWord 0x00FD 0b1111000100000111 = .ok (.ldVxDt 1) ∧ decodeWord 0x00FD 0b1111001100001010 = .ok (.ldVxK 3) ∧
    decodeWord 0x00FD 0b1111000000010101 = .ok (.ldDtVx 0) ∧ decodeWord 0x00FD 0b1111000100011000 = .ok (.ldStVx 1) ∧
    decodeWord 0x00FD 0b1111001000011110 = .ok (.addI 2) ∧ decodeWord 0x00FD 0b1111000000101001 = .ok (.ldF 0) ∧
    decodeWord 0x00FD 0b1111000000110011 = .ok (.ldB 0) ∧
    decodeWord 0x00FD 0b1111001101010101 = .ok (.storeRegs 3) ∧
    decodeWord 0x00FD 0b1111001001100101 = .ok (.loadRegs 2) := by decide

/-- T10 to T14: illegal words, by name. -/
theorem test_decode_illegal :
    decodeWord 0x00FD 0x00E1 = .error .family0 ∧ decodeWord 0x00FD 0x0123 = .error .family0 ∧
    decodeWord 0x00FD 0x5011 = .error .family5 ∧ decodeWord 0x00FD 0x9A5C = .error .family9 ∧
    decodeWord 0x00FD 0x8008 = .error .family8 ∧ decodeWord 0x00FD 0x800F = .error .family8 ∧
    decodeWord 0x00FD 0xE09F = .error .familyE ∧ decodeWord 0x00FD 0xF075 = .error .familyF ∧
    decodeBytes 0x00FD [0x60] = .error .truncated := by decide

/-- R42: the byte at the lower address is the high byte (T1's bytes 0x60, 0x12). -/
theorem test_decode_bytes_big_endian :
    decodeBytes 0x00FD [0x60, 0x12, 0xFF] = .ok (.ldImm 0 0x12, [0xFF]) := by decide

/-- The table's rows of two different instructions never share a word (R70: "selects exactly one"). -/
theorem test_rows_do_not_overlap :
    ([.cls, .ret, .exit, .jp 0, .call 0, .seImm 0 0, .sneImm 0 0, .seReg 0 0, .ldImm 0 0, .addImm 0 0, .ldReg 0 0,
      .orReg 0 0, .andReg 0 0, .xorReg 0 0, .addReg 0 0, .subReg 0 0, .shr 0 0, .subnReg 0 0] ++
     [.shl 0 0, .sneReg 0 0, .ldI 0, .jpV0 0, .rnd 0 0, .drw 0 0 0, .skp 0, .sknp 0, .ldVxDt 0, .ldVxK 0, .ldDtVx 0,
      .ldStVx 0, .addI 0, .ldF 0, .ldB 0, .storeRegs 0, .loadRegs 0] : List Instr).Pairwise
      (fun a b => (a.row 0x00FD).value &&& (b.row 0x00FD).mask ≠ (b.row 0x00FD).value &&& (a.row 0x00FD).mask) := by
  decide

/-! ## One step from a small state -/

/-- One STEP, with `now` 0 and `rnd` 0xB7, on the word placed at `pc`. -/
def after (s : State) (w : Nat) (now : Rat := 0) : Option State :=
  match stepWith { now := now, rnd := 0xB7 } (s.withFetchWord 16 w) with
  | .next t => some t
  | _ => none

/-- Reset with two registers set. -/
def regs2 (x : Nibble) (a : Byte) (y : Nibble) (b : Byte) : State := (State.reset.setReg x a).setReg y b

/-- Reset with `I` set. -/
def atI (a : Word) : State := State.reset.setI a

/-- Reset with a call depth and every slot holding one address. -/
def atDepth (d : Fin 17) (ret : Word) : State :=
  { State.reset with depth := d, stack := Vector.replicate 16 ret }

/-- A time that makes a tick due after reset: 0.017 s. -/
def tickTime : Rat := { num := 17, den := 1000 }

/-- A time at which no tick is due after reset: 0.010 s. -/
def earlyTime : Rat := { num := 1, den := 100 }

/-- T1. -/
theorem test_step_big_endian : (after State.reset 0x6012).map (fun t => (t.reg 0, t.pc, t.fault)) =
    some (0x12, 0x202, none) := by decide

/-- T2: the last word; the next step then faults. -/
theorem test_step_last_word : (after (State.reset.setPc 0xFFE) 0x6012).map (fun t => (t.reg 0, t.pc, t.fault)) =
    some (0x12, 0x1000, none) := by decide

/-- T4: the second byte of the fetch lies outside memory. -/
theorem test_step_fetch_bound : (after (State.reset.setPc 0xFFF) 0x6012).map (fun t => (t.pc, t.fault)) =
    some (0xFFF, some .memoryProtection) := by decide

/-- T5, T6, T7. -/
theorem test_step_range :
    (after (State.reset.setPc 0x1FE) 0).map (fun t => (t.pc, t.fault)) = some (0x1FE, some .memoryProtection) ∧
    (after (State.reset.setPc 0x1000) 0).map (fun t => (t.pc, t.fault)) = some (0x1000, some .memoryProtection) ∧
    (after (State.reset.setPc 0) 0).map (fun t => (t.pc, t.fault, t.halted)) =
      some (0, some .memoryProtection, true) := by decide

/-- T8: a step on a faulted machine changes nothing, with a tick due. -/
theorem test_step_faulted :
    (after ((State.reset.setDt 5).setFault .decode) 0x6012 tickTime).map (fun t => (t.pc, t.dt, t.tLast, t.fault)) =
      some (0x200, 5, 0, some .decode) := by decide

/-- T9, T15: an illegal word; no timer sync. -/
theorem test_step_decode_fault :
    (after (State.reset.setDt 5) 0x0000 tickTime).map (fun t => (t.pc, t.dt, t.tLast, faultCode t.fault)) =
      some (0x202, 5, 0, 3) := by decide

/-- T100. -/
theorem test_cls : (after ((State.reset.setFb (Framebuffer.blank.setPixel 3 3 true)).setReg 0xF 1) 0x00E0).map
    (fun t => (t.pixel 3 3, t.reg 0xF, t.pc)) = some (false, 1, 0x202) := by decide

/-- T26 and T25. -/
theorem test_ret : (after (atDepth 1 0x206) 0x00EE).map (fun t => (t.pc, t.depth, t.stack[0])) =
    some (0x206, 0, 0x206) := by decide

theorem test_ret_empty : (after State.reset 0x00EE).map (fun t => (t.pc, t.depth, t.fault)) =
    some (0x202, 0, some .stack) := by decide

/-- T37, T38: EXIT's step runs the timer sync. -/
theorem test_exit : (after (State.reset.setDt 5) 0x00FD tickTime).map (fun t => (t.pc, t.dt, t.tLast, t.fault, t.halted)) =
    some (0, 4, tickTime, none, true) := by decide

/-- S6, T22. -/
theorem test_jp : (after State.reset 0x1ABC).map (·.pc) = some 0xABC ∧
    (after State.reset 0x11FF).map (fun t => (t.pc, t.fault)) = some (0x1FF, none) := by decide

/-- T23. -/
theorem test_call : (after State.reset 0x2ABC).map (fun t => (t.stack[0], t.depth, t.pc)) =
    some (0x202, 1, 0xABC) := by decide

/-- T24. -/
theorem test_call_full : (after (atDepth 16 0x300) 0x2ABC).map (fun t => (t.stack[15], t.depth, t.pc, t.fault)) =
    some (0x300, 16, 0x202, some .stack) := by decide

/-- T27, T28. -/
theorem test_seImm : (after State.reset 0x3100).map (·.pc) = some 0x204 ∧
    (after (State.reset.setReg 1 4) 0x3100).map (·.pc) = some 0x202 := by decide

/-- T29, T30. -/
theorem test_sneImm : (after (State.reset.setReg 2 0x10) 0x4211).map (·.pc) = some 0x204 ∧
    (after (State.reset.setReg 2 0x11) 0x4211).map (·.pc) = some 0x202 := by decide

/-- T31, and T3: a taken skip past the top. -/
theorem test_seReg : (after State.reset 0x5330).map (·.pc) = some 0x204 ∧
    (after ((State.reset.setPc 0xFFE)) 0x5330).map (·.pc) = some 0x1002 := by decide

/-- T32, T33. -/
theorem test_sneReg : (after State.reset 0x9330).map (·.pc) = some 0x202 ∧
    (after (regs2 0 1 1 2) 0x9010).map (·.pc) = some 0x204 := by decide

/-- T34, T35. -/
theorem test_jpV0 : (after (State.reset.setReg 0 4) 0xB300).map (·.pc) = some 0x304 ∧
    (after (State.reset.setReg 0 0xFF) 0xBFFF).map (fun t => (t.pc, t.fault)) = some (0x10FE, none) := by decide

/-- R121's example. -/
theorem test_ldImm : (after State.reset 0x609C).map (·.reg 0) = some 0x9C := by decide

/-- T40, T41. -/
theorem test_addImm : (after (State.reset.setReg 0 0xFF) 0x7001).map (fun t => (t.reg 0, t.reg 0xF)) = some (0, 0) ∧
    (after (State.reset.setReg 0xF 0xFF) 0x7F01).map (·.reg 0xF) = some 0 := by decide

/-- R123's example. -/
theorem test_ldReg : (after (State.reset.setReg 3 0x7B) 0x8230).map (fun t => (t.reg 2, t.reg 3)) =
    some (0x7B, 0x7B) := by decide

/-- T43, T44, T45: the logic instructions leave VF alone. -/
theorem test_logic :
    (after ((regs2 0 0x0C 1 0x0A).setReg 0xF 1) 0x8011).map (fun t => (t.reg 0, t.reg 0xF)) = some (0x0E, 1) ∧
    (after ((regs2 0 0x0C 1 0x0A).setReg 0xF 1) 0x8012).map (fun t => (t.reg 0, t.reg 0xF)) = some (0x08, 1) ∧
    (after ((regs2 0 0x0C 1 0x0A).setReg 0xF 1) 0x8013).map (fun t => (t.reg 0, t.reg 0xF)) = some (0x06, 1) := by
  decide

/-- S1, T48 and, with destination VF, T50. -/
theorem test_addReg : (after (regs2 0 0xFF 1 0x01) 0x8014).map (fun t => (t.reg 0, t.reg 0xF)) = some (0, 1) ∧
    (after ((regs2 0 0x80 1 0x7F).setReg 0xF 1) 0x8014).map (fun t => (t.reg 0, t.reg 0xF)) = some (0xFF, 0) := by decide

theorem test_addReg_vf : (after (regs2 0xF 0xF0 1 0x20) 0x8F14).map (·.reg 0xF) = some 1 ∧
    (after (regs2 0 0xFF 0xF 0x01) 0x80F4).map (fun t => (t.reg 0, t.reg 0xF)) = some (0, 1) := by decide

/-- S2, T52. -/
theorem test_subReg : (after (regs2 0 1 1 2) 0x8015).map (fun t => (t.reg 0, t.reg 0xF)) = some (0xFF, 0) ∧
    (after (regs2 0 7 1 7) 0x8015).map (fun t => (t.reg 0, t.reg 0xF)) = some (0, 1) := by decide

/-- T58, and T59 with SHIFT_USES_VY. -/
theorem test_shr : (after (regs2 0 3 1 0x80) 0x8016).map (fun t => (t.reg 0, t.reg 0xF)) = some (1, 1) := by decide

theorem test_shr_vy :
    (after { regs2 0 3 1 0x80 with cfg := { defaultConfig with shiftUsesVy := true } } 0x8016).map
      (fun t => (t.reg 0, t.reg 0xF, t.reg 1)) = some (0x40, 0, 0x80) := by decide

/-- T55, T56. -/
theorem test_subnReg : (after (regs2 0 2 1 1) 0x8017).map (fun t => (t.reg 0, t.reg 0xF)) = some (0xFF, 0) ∧
    (after (regs2 0 1 1 3) 0x8017).map (fun t => (t.reg 0, t.reg 0xF)) = some (2, 1) := by decide

/-- T63, T64. -/
theorem test_shl : (after (State.reset.setReg 0 0x81) 0x800E).map (fun t => (t.reg 0, t.reg 0xF)) = some (2, 1) ∧
    (after (regs2 0 0x7F 0xF 1) 0x800E).map (fun t => (t.reg 0, t.reg 0xF)) = some (0xFE, 0) := by decide

/-- T80. -/
theorem test_ldI : (after State.reset 0xA1FF).map (fun t => (t.i, t.fault)) = some (0x1FF, none) := by decide

/-- T81, T82. -/
theorem test_addI : (after ((atI 0xFFF).setReg 0 1) 0xF01E).map (fun t => (t.i, t.reg 0xF)) = some (0x1000, 0) ∧
    (after ((atI 0xFFFF).setReg 0 2) 0xF01E).map (·.i) = some 1 := by decide

/-- S12, T85. -/
theorem test_ldF : (after (State.reset.setReg 0 0xA) 0xF029).map (·.i) = some 0x82 ∧
    (after (State.reset.setReg 0 0xFF) 0xF029).map (·.i) = some 0x54B := by decide

/-- S11, T88. -/
theorem test_ldB : (after ((atI 0x300).setReg 0 0x9C) 0xF033).map (fun t => (t.readBlock 0x300 3, t.i)) =
      some ([1, 5, 6], 0x300) ∧
    (after ((atI 0xFFD).setReg 0 0x64) 0xF033).map (fun t => (t.readBlock 0xFFD 3, t.fault)) =
      some ([1, 0, 0], none) := by decide

/-- T89, T90. -/
theorem test_ldB_fault : (after ((atI 0xFFE).setReg 0 0x64) 0xF033).map (fun t => (t.readByte 0xFFE, t.pc, t.fault)) =
      some (0, 0x202, some .memoryProtection) ∧
    (after ((atI 0x1FF).setReg 0 0x64) 0xF033).map (fun t => (t.readByte 0x1FF, t.fault)) =
      some (0, some .memoryProtection) := by decide

/-- S9's store. -/
theorem test_storeRegs :
    (after ((((regs2 0 1 1 2).setReg 2 3).setReg 3 4).setI 0x300) 0xF355).map (fun t => (t.readBlock 0x300 5, t.i)) =
      some ([1, 2, 3, 4, 0], 0x300) := by decide

/-- T91, T92, S10. -/
theorem test_storeRegs_bounds :
    (after ((atI 0xFFF).setReg 0 0xAA) 0xF055).map (fun t => (t.readByte 0xFFF, t.fault)) = some (0xAA, none) ∧
    (after ((atI 0xFFF).setReg 0 0xAA) 0xF155).map (fun t => (t.readByte 0xFFF, t.fault)) =
      some (0, some .memoryProtection) ∧
    (after ((atI 0x1FF).setReg 0 0xAA) 0xF055).map (fun t => (t.pc, faultCode t.fault)) = some (0x202, 1) := by decide

/-- T98. -/
theorem test_loadRegs :
    (after ((atI 0x300).writeBlock 0x300 [1, 5, 6]) 0xF265).map (fun t => (t.regsBelow 4, t.i)) =
      some ([1, 5, 6, 0], 0x300) := by decide

/-- T95, T97. -/
theorem test_loadRegs_fault :
    (after ((atI 0x050).setReg 0 9) 0xF065).map (fun t => (t.reg 0, t.fault)) = some (9, some .memoryProtection) ∧
    (after ((regs2 0 9 1 9).setI 0xFFF) 0xF165).map (fun t => (t.regsBelow 2, t.fault)) =
      some ([9, 9], some .memoryProtection) := by decide

/-- The columns set in one row of a state. -/
def rowColumns (t : State) (r : Fin 32) : List Nat :=
  ((List.finRange 64).filter fun c => t.pixel r c).map (·.val)

/-- S5 and T102: both axes wrap per pixel. -/
theorem test_drw_wraps :
    (after (((atI 0x300).writeByte 0x300 0xFF).setReg 0 60) 0xD011).map (fun t => rowColumns t 0) =
      some [0, 1, 2, 3, 60, 61, 62, 63] ∧
    (after (((atI 0x300).writeBlock 0x300 [0xC0, 0xC0]).setReg 0 0xFF |>.setReg 1 0xFF) 0xD012).map
      (fun t => (rowColumns t 31, rowColumns t 0, t.reg 0xF)) = some ([0, 63], [0, 63], 0) := by decide

/-- T105, T106: a collision, in both draw flag modes. -/
theorem test_drw_collision :
    (after (((atI 0x300).writeByte 0x300 0x80).setReg 0xF 0x36 |>.setFb (Framebuffer.blank.setPixel 0 0 true))
      0xD011).map (fun t => (rowColumns t 0, t.reg 0xF)) = some ([], 0x37) ∧
    (after { ((atI 0x300).writeByte 0x300 0x80).setReg 0xF 0x36 |>.setFb (Framebuffer.blank.setPixel 0 0 true) with
      cfg := { defaultConfig with drawFlagMode := .setOne } } 0xD011).map (·.reg 0xF) = some 1 := by decide

/-- T120, T123. -/
theorem test_skp : (after ((State.reset.setReg 0 5).setKey (some 5)) 0xE09E).map (fun t => (t.pc, t.key)) =
      some (0x204, none) ∧
    (after ((State.reset.setReg 0 0x15).setKey (some 5)) 0xE09E).map (fun t => (t.pc, t.key)) =
      some (0x202, some 5) := by decide

/-- T124, T126. -/
theorem test_sknp : (after ((State.reset.setReg 0 5).setKey (some 5)) 0xE0A1).map (fun t => (t.pc, t.key)) =
      some (0x202, none) ∧
    (after (State.reset.setReg 0 5) 0xE0A1).map (fun t => (t.pc, t.key)) = some (0x204, none) := by decide

/-- T72: the value before the sync, and one decrement. -/
theorem test_ldVxDt : (after ((State.reset.setDt 5).setSt 1) 0xF007 1).map (fun t => (t.reg 0, t.dt, t.st, t.tLast)) =
    some (5, 4, 0, 1) := by decide

/-- T131, T130. -/
theorem test_ldVxK : (after (State.reset.setDt 5) 0xF00A 1).map (fun t => (t.pc, t.dt, t.tLast)) =
      some (0x200, 4, 1) ∧
    (after ((State.reset.setReg 0 9).setKey (some 15)) 0xF00A).map (fun t => (t.reg 0, t.key, t.pc)) =
      some (0x0F, none, 0x202) := by decide

/-- T70, T71. -/
theorem test_ldDtVx : (after (State.reset.setReg 0 5) 0xF015 earlyTime).map (fun t => (t.dt, t.tLast)) = some (5, 0) ∧
    (after (State.reset.setReg 0 5) 0xF015 tickTime).map (fun t => (t.dt, t.tLast)) = some (4, tickTime) := by decide

/-- T74. -/
theorem test_ldStVx : (after (State.reset.setReg 1 0x1E) 0xF118).map (·.st) = some 0x1E := by decide

/-- T132, T134. -/
theorem test_rnd : (after State.reset 0xC00F).map (·.reg 0) = some 0x07 ∧
    (after State.reset 0xC0FF).map (·.reg 0) = some 0xB7 := by decide

/-- T73: the timestamp moves with both timers 0. -/
theorem test_sync_zero_timers : (after State.reset 0x6000 tickTime).map (fun t => (t.dt, t.st, t.tLast)) =
    some (0, 0, tickTime) := by decide

/-- R24, R23: the font is in place after reset: glyph "A" at 0x082. -/
theorem test_reset_font : State.reset.readBlock 0x82 5 = [0xF0, 0x90, 0xF0, 0x90, 0x90] := by decide

/-- A write of what an unlisted address reads as lists nothing. -/
theorem test_memory_canonical : ((State.reset.writeByte 0x300 7).writeByte 0x300 0).mem = [] := by decide

/-! ## Runs (R93): worked out by hand -/

/-- RESET at time 0, LOAD of the one word 0x00FD (EXIT), and two STEPs: the second faults (R90), but the run was
over before it and ended normally. -/
def exitRun : List Transaction := [.reset 0, .load [0x00, 0xFD], .step ⟨0, 0⟩, .step ⟨0, 0⟩]

theorem test_run_ends_at_the_first_over_state :
    isRun exitRun = true ∧ endOfRun exitRun State.reset = some .normally ∧
    (match transactAll exitRun State.reset with
      | .next t => t.fault == some .memoryProtection
      | _ => false) = true := by decide

/-- An image of no bytes: the word 0x0000 of INIT_MEM is illegal, so the run ends in a fault. -/
theorem test_run_ends_in_fault : endOfRun [.reset 0, .load [], .step ⟨0, 0⟩] State.reset = some .inFault := by decide

/-- Without RESET and LOAD in front, or with a STEP earlier than reset, it is no run; STEP before LOAD is out of order. -/
theorem test_no_run :
    isRun [.step ⟨0, 0⟩] = false ∧ isRun [.reset 1, .load [], .step ⟨0, 0⟩] = false ∧
    inOrder [.reset 0, .step ⟨0, 0⟩] = false ∧ monotonic [.reset 0, .step ⟨1, 0⟩, .step ⟨0, 0⟩] = false := by decide

/-! ## Witnesses: states and operands that meet the hypotheses of the statements -/

/-- A word written at the reset counter is fetched. -/
theorem reset_fetches (w : Word) (hi lo : Byte) (h : hi ++ lo = w) :
    (State.reset.writeBlock 0x200 [hi, lo]).Fetches w := by
  have hl : 0x200 + [hi, lo].length ≤ memSize := by simp [memSize]
  have hpc : (State.reset.writeBlock 0x200 [hi, lo]).pc = 0x200 := by rw [State.writeBlock_eq]; rfl
  refine ⟨by rw [State.writeBlock_eq]; rfl, by rw [hpc]; decide, by rw [hpc]; decide, ?_⟩
  rw [hpc]
  show State.readByte (State.reset.writeBlock 0x200 [hi, lo]) 0x200 ++
    State.readByte (State.reset.writeBlock 0x200 [hi, lo]) 0x201 = w
  rw [State.readByte_writeBlock _ _ _ _ hl, State.readByte_writeBlock _ _ _ _ hl]
  exact h

theorem witness_EncodeThenDecodeReturnsTheInstruction :
    defaultConfig.wellFormed = true ∧ (Instr.drw 0xF 0xF 0xF).wellFormed = true := by decide

theorem witness_DecodedWordsEncodeBack : decodeWord 0x00FD 0xFF65 = .ok (.loadRegs 0xF) := by decide

/-- One illegal word at a boundary of each line of R70's table. -/
theorem witness_IllegalWordsAreThoseOfTheTable : defaultConfig.wellFormed = true ∧
    decodeWord 0x00FD 0x0000 = .error .family0 ∧ decodeWord 0x00FD 0x0FFF = .error .family0 ∧
    decodeWord 0x00FD 0x5001 = .error .family5 ∧ decodeWord 0x00FD 0x8FFF = .error .family8 ∧
    decodeWord 0x00FD 0x9001 = .error .family9 ∧ decodeWord 0x00FD 0xE09D = .error .familyE ∧
    decodeWord 0x00FD 0xF066 = .error .familyF := by decide

theorem witness_ResetStateMeetsTheInvariant : defaultConfig.wellFormed = true := by decide

theorem witness_LoadPlacesTheImageFromProgBase : (List.replicate 3584 (0 : Byte)).length ≤ 3584 :=
  Nat.le_of_eq List.length_replicate

theorem witness_LoadRefusesExactlyTheImagesThatDoNotFit :
    3584 < (List.replicate 3585 (0 : Byte)).length ∧ (List.replicate 3584 (0 : Byte)).length ≤ 3584 :=
  ⟨by rw [List.length_replicate]; decide, Nat.le_of_eq List.length_replicate⟩

theorem witness_FaultStaysLatchedUntilReset :
    (State.reset.setFault .stack).fault = some .stack ∧
    (∀ now, Transaction.reset now ∉ [Transaction.setKey none, .step ⟨0, 0⟩]) ∧
    transactAll [.setKey none, .step ⟨0, 0⟩] (State.reset.setFault .stack) =
      .next ((State.reset.setFault .stack).setKey none) := ⟨rfl, by simp, rfl⟩

/-- At both ends of the counter's range: 0x200 and 0xFFE. -/
theorem witness_StepRunsTheDecodedInstruction :
    (State.reset.writeBlock 0x200 [0x60, 0x12]).Fetches 0x6012 ∧
    ((State.reset.setPc 0xFFE).writeBlock 0xFFE [0x60, 0x12]).Fetches 0x6012 ∧
    decodeWord State.reset.cfg.exitWord 0x6012 = .ok (.ldImm 0 0x12) :=
  ⟨reset_fetches _ _ _ rfl, ⟨by decide, by decide, by decide, by decide⟩, by decide⟩

theorem witness_FaultedMachineHoldsStill : (State.reset.setFault .decode).fault ≠ none := by decide

theorem witness_CounterOutOfRangeFaultsWithNothingChanged :
    State.reset.fault = none ∧ (State.reset.setPc 0x1FF).pc.toNat < 0x200 ∧ (State.reset.setPc 0).pc.toNat < 0x200 ∧
    0xFFE < (State.reset.setPc 0xFFF).pc.toNat ∧ 0xFFE < (State.reset.setPc 0x1000).pc.toNat := by decide

theorem witness_IllegalWordFaultsWithTheCounterAdvanced :
    (State.reset.writeBlock 0x200 [0x50, 0x01]).Fetches 0x5001 ∧
    decodeWord State.reset.cfg.exitWord 0x5001 = .error .family5 := ⟨reset_fetches _ _ _ rfl, by decide⟩

/-- RET on the empty stack after reset. -/
theorem witness_FaultingInstructionChangesOnlyCounterAndLatch :
    ∃ t, (State.reset.writeBlock 0x200 [0x00, 0xEE]).Fetches 0x00EE ∧
      decodeWord State.reset.cfg.exitWord 0x00EE = .ok .ret ∧
      stepWith ⟨0, 0⟩ (State.reset.writeBlock 0x200 [0x00, 0xEE]) = .next t ∧ t.fault ≠ none :=
  ⟨_, reset_fetches _ _ _ rfl, by decide, rfl, by decide⟩

/-- One time at which a tick is due, exactly 1/60 s, and one at which it is not. -/
theorem witness_TimerSyncEndsEveryStepWithoutFault :
    ∃ t, (State.reset.writeBlock 0x200 [0x60, 0x12]).Fetches 0x6012 ∧
      decodeWord State.reset.cfg.exitWord 0x6012 = .ok (.ldImm 0 0x12) ∧
      exec (.ldImm 0 0x12) (advance ((State.reset.writeBlock 0x200 [0x60, 0x12]).accept ⟨1 / 60, 0⟩)) = .next t ∧
      t.fault = none ∧ (1 / 60 : Rat) - State.reset.tLast ≥ 1 / 60 ∧ ¬ (0 : Rat) - State.reset.tLast ≥ 1 / 60 :=
  ⟨_, reset_fetches _ _ _ rfl, by decide, rfl, rfl, by
    rw [show State.reset.tLast = 0 from rfl]; norm_num, by rw [show State.reset.tLast = 0 from rfl]; norm_num⟩

/-- A state meeting each cause: M1, M3, M4, M5, M8, M9, M10, S1, S2, X1 at the boundary of its range. -/
theorem witness_FaultCausesAreExactlyTheLists :
    (after (State.reset.setPc 0x1FF) 0).map (·.fault) = some (some .memoryProtection) ∧
    (after (State.reset.setPc 0xFFF) 0).map (·.fault) = some (some .memoryProtection) ∧
    (after (atI 0x1FF) 0xF055).map (·.fault) = some (some .memoryProtection) ∧
    (after (atI 0xFFF) 0xF165).map (·.fault) = some (some .memoryProtection) ∧
    (after (atI 0xFFE) 0xF033).map (·.fault) = some (some .memoryProtection) ∧
    (after (atI 0x1000) 0xD001).map (·.fault) = some (some .memoryProtection) ∧
    (after (atDepth 16 0) 0x2000).map (·.fault) = some (some .stack) ∧
    (after State.reset 0x00EE).map (·.fault) = some (some .stack) ∧
    (after State.reset 0x0000).map (·.fault) = some (some .decode) := by decide

/-- Reset with a program byte written meets the invariant, and steps; and every transaction leads on from it. -/
theorem witness_EveryStepKeepsTheInvariant :
    ∃ t u v w, (State.reset.writeByte 0x200 0x60).Inv ∧
      stepWith ⟨0, 0⟩ (State.reset.writeByte 0x200 0x60) = .next t ∧
      transact (.load [0x60, 0x12]) (State.reset.writeByte 0x200 0x60) = .next u ∧
      transact (.setKey (some 5)) (State.reset.writeByte 0x200 0x60) = .next v ∧
      transact (.reset 1) (State.reset.writeByte 0x200 0x60) = .next w :=
  ⟨_, _, _, _, ⟨by decide, by decide, by decide⟩, rfl, rfl, rfl, rfl⟩

/-- EXIT at the reset counter, with a STEP after it. -/
theorem witness_ExitSetsTheHaltSentinel :
    (State.reset.writeBlock 0x200 [0x00, 0xFD]).Fetches 0x00FD ∧
    decodeWord State.reset.cfg.exitWord 0x00FD = .ok .exit := ⟨reset_fetches _ _ _ rfl, by decide⟩

theorem witness_NoStepChangesTheReservedLowRegion :
    ∃ t, stepWith ⟨0, 0⟩ ((atI 0x200).writeBlock 0x200 [0xFF, 0x55]) = .next t := ⟨_, rfl⟩

theorem witness_CanonicalMemoriesReadingAlikeAreEqual :
    Memory.wf defaultConfig [(0x200, 0x60), (0x201, 0x12)] ∧
    Memory.wf defaultConfig (Memory.write defaultConfig [(0x201, 0x12)] 0x200 0x60) := by decide

theorem witness_OnlyTheListedInstructionsChangeVF :
    ∃ t, exec (.addReg 0 1) (regs2 0 0xFF 1 1) = .next t ∧ t.reg 0xF ≠ (regs2 0 0xFF 1 1).reg 0xF :=
  ⟨_, rfl, by decide⟩

theorem witness_OnlyThreeInstructionsChangeTheIndex :
    ∃ t, exec (.ldI 0x300) State.reset = .next t ∧ t.i ≠ State.reset.i := ⟨_, rfl, by decide⟩

theorem witness_OnlyCallAndRetChangeTheStack :
    ∃ t, exec (.call 0x300) State.reset = .next t ∧ t.depth ≠ State.reset.depth ∧
      t.stack[(0 : Fin 16).val] ≠ State.reset.stack[(0 : Fin 16).val] := ⟨_, rfl, by decide, by decide⟩

theorem witness_OnlyKeyInstructionsConsumeTheLatch :
    ∃ t, exec (.ldVxK 0) (State.reset.setKey (some 3)) = .next t ∧ t.key ≠ (State.reset.setKey (some 3)).key :=
  ⟨_, rfl, by decide⟩

theorem witness_OnlyStoresChangeMemoryAndOnlyDisplayTheFramebuffer :
    (∃ t, exec (.storeRegs 0) ((atI 0x200).setReg 0 1) = .next t ∧ t.readByte 0x200 ≠ (atI 0x200).readByte 0x200) ∧
    (∃ t, exec (.drw 0 0 1) (atI 0x50) = .next t ∧ t.pixel 0 0 ≠ (atI 0x50).pixel 0 0) :=
  ⟨⟨_, rfl, by decide⟩, ⟨_, rfl, by decide⟩⟩

/-- One instruction that faults and one that does not. -/
theorem witness_CounterAfterEachInstruction : State.reset.fault = none ∧
    (∃ t, exec .ret State.reset = .next t ∧ t.fault ≠ none) ∧
    (∃ t, exec (.jp 0x300) State.reset = .next t ∧ t.fault = none) :=
  ⟨rfl, ⟨_, rfl, by decide⟩, ⟨_, rfl, rfl⟩⟩

theorem witness_RandomByteReachesOnlyRnd :
    (∀ x kk, Instr.ldImm 0 1 ≠ .rnd x kk) ∧ ∃ t, exec (.ldImm 0 1) State.reset = .next t := ⟨by simp, _, rfl⟩

/-- Depths 0 and 15 below the bound, 1 and 16 above zero. -/
theorem witness_CallPushesTheCounterAndJumps : (atDepth 0 0).depth.val < 16 ∧ (atDepth 15 0).depth.val < 16 := by decide

theorem witness_ReturnPopsTheCounter : (atDepth 1 0).depth.val ≠ 0 ∧ (atDepth 16 0).depth.val ≠ 0 := by decide

theorem witness_StackInstructionsFaultAtTheirBounds :
    (atDepth 16 0).depth.val = 16 ∧ (atDepth 0 0).depth.val = 0 := by decide

theorem witness_CallThenReturnRestoresTheCounter :
    ∃ t u : State, exec (.call 0x300) State.reset = .next t ∧ u.depth = t.depth ∧
      u.stack[State.reset.depth.val] = t.stack[State.reset.depth.val] ∧ State.reset.depth.val < 16 :=
  ⟨_, _, rfl, rfl, rfl, by decide⟩

/-- Both values of SHIFT_USES_VY. -/
theorem witness_ShiftsMoveOneBitIntoTheFlag :
    (3 = if (regs2 0 3 1 0x80).cfg.shiftUsesVy = true then ((regs2 0 3 1 0x80).reg 1).toNat
      else ((regs2 0 3 1 0x80).reg 0).toNat) ∧
    { regs2 0 3 1 0x80 with cfg := { defaultConfig with shiftUsesVy := true } }.cfg.shiftUsesVy = true := by decide

/-- The lowest and the highest index whose three bytes fit. -/
theorem witness_DecimalDigitsAreStoredAtTheIndex :
    0x200 ≤ (atI 0x200).i.toNat ∧ (atI 0x200).i.toNat + 2 ≤ 0xFFF ∧
    0x200 ≤ (atI 0xFFD).i.toNat ∧ (atI 0xFFD).i.toNat + 2 ≤ 0xFFF := by decide

/-- One register at the lowest index, all sixteen at the highest. -/
theorem witness_BulkStoreWritesTheRegistersInOrder :
    0x200 ≤ (atI 0x200).i.toNat ∧ (atI 0x200).i.toNat + (0 : Nibble).toNat ≤ 0xFFF ∧
    0x200 ≤ (atI 0xFF0).i.toNat ∧ (atI 0xFF0).i.toNat + (0xF : Nibble).toNat ≤ 0xFFF := by decide

theorem witness_BulkLoadReadsTheRegistersInOrder :
    0x200 ≤ (atI 0xFFF).i.toNat ∧ (atI 0xFFF).i.toNat + (0 : Nibble).toNat ≤ 0xFFF ∧
    0x200 ≤ (atI 0xFF0).i.toNat ∧ (atI 0xFF0).i.toNat + (0xF : Nibble).toNat ≤ 0xFFF := by decide

/-- Each clause at both of its bounds. -/
theorem witness_BlockInstructionsFaultOutsideTheirRange :
    (atI 0x1FF).i.toNat < 0x200 ∧ (atI 0xFFE).i.toNat + 2 > 0xFFF ∧
    (atI 0xFFF).i.toNat + (1 : Nibble).toNat > 0xFFF ∧ (atI 0xFF1).i.toNat + (0xF : Nibble).toNat > 0xFFF ∧
    ((9 : Nibble).toNat ≥ 1 ∧ (atI 0xFF8).i.toNat + (9 : Nibble).toNat - 1 > 0xFFF) ∧
    ((1 : Nibble).toNat ≥ 1 ∧ (atI 0x1000).i.toNat + (1 : Nibble).toNat - 1 > 0xFFF) := by decide

theorem witness_BulkStoreThenLoadRestoresTheRegisters :
    ∃ t u : State, 0x200 ≤ (atI 0x300).i.toNat ∧ (atI 0x300).i.toNat + (3 : Nibble).toNat ≤ 0xFFF ∧
      exec (.storeRegs 3) (atI 0x300) = .next t ∧ u.mem = t.mem ∧ u.cfg = t.cfg ∧ u.i = (atI 0x300).i :=
  ⟨_, _, by decide, by decide, rfl, rfl, rfl, rfl⟩

/-- No row at all with an index outside memory, one row at the top of memory; a pixel the glyph "0" covers and one it
does not; a framebuffer that collides with it and one that does not. -/
theorem witness_DrawXorsTheSpriteAndReportsCollisions :
    (0 : Nibble).toNat = 0 ∧ (atI 0xFFF).i.toNat + (1 : Nibble).toNat - 1 ≤ 0xFFF ∧
    spriteCovers (atI 0x50) 0 0 5 0 0 ∧ ¬ spriteCovers (atI 0x50) 0 0 0 0 0 ∧
    (∃ r c, ((atI 0x50).setFb (Framebuffer.blank.setPixel 0 0 true)).pixel r c = true ∧
      spriteCovers ((atI 0x50).setFb (Framebuffer.blank.setPixel 0 0 true)) 0 0 5 r c) ∧
    ¬ ∃ r c, (atI 0x50).pixel r c = true ∧ spriteCovers (atI 0x50) 0 0 5 r c := by
  refine ⟨by decide, by decide, ⟨0, 0, by decide, by decide, by decide, by decide, by decide⟩, ?_,
    ⟨0, 0, by decide, ⟨0, 0, by decide, by decide, by decide, by decide, by decide⟩⟩, ?_⟩
  · rintro ⟨_, _, h, -⟩
    exact absurd h (by simp)
  · rintro ⟨r, c, h, -⟩
    rw [show (atI 0x50).pixel r c = Framebuffer.blank.pixel r c from rfl, Framebuffer.pixel_blank] at h
    cases h

theorem witness_DrawingTwiceRestoresTheFramebuffer :
    ∃ t u : State, exec (.drw 0 1 5) (atI 0x50) = .next t ∧ exec (.drw 0 1 5) t = .next u ∧
      t.reg 0 = (atI 0x50).reg 0 ∧ t.reg 1 = (atI 0x50).reg 1 := ⟨_, _, rfl, rfl, by decide, by decide⟩

/-- A match and no match, with a key and without one. -/
theorem witness_SkipIfKeySkipsAndConsumesOnMatch :
    (∃ k : Nibble, ((State.reset.setReg 0 0xF).setKey (some 0xF)).key = some k ∧
      k.toNat = (((State.reset.setReg 0 0xF).setKey (some 0xF)).reg 0).toNat) ∧
    ¬ ∃ k : Nibble, State.reset.key = some k ∧ k.toNat = (State.reset.reg 0).toNat :=
  ⟨⟨0xF, by decide, by decide⟩, by rintro ⟨_, h, -⟩; cases h⟩

theorem witness_SkipIfNotKeyConsumesOnMatchWithoutSkipping :
    (∃ k : Nibble, ((State.reset.setReg 0 0).setKey (some 0)).key = some k ∧
      k.toNat = (((State.reset.setReg 0 0).setKey (some 0)).reg 0).toNat) ∧
    ¬ ∃ k : Nibble, ((State.reset.setReg 0 0x15).setKey (some 5)).key = some k ∧
      k.toNat = (((State.reset.setReg 0 0x15).setKey (some 5)).reg 0).toNat := by
  refine ⟨⟨0, by decide, by decide⟩, ?_⟩
  rintro ⟨k, h, e⟩
  obtain rfl : (5 : Nibble) = k := by simpa using h
  revert e
  decide

theorem witness_BlockForKeyRewindsOrTakesTheKey :
    State.reset.key = none ∧ (State.reset.setKey (some 0xF)).key = some 0xF := by decide

end Sys2Proof.Tests
end

section
/-! The layered match of R64 on the words the encoder gives. -/

namespace Sys2Proof

/-- R5: what EXIT_WORD's constraints say about the layered match of R64. -/
theorem Config.exitWord_of_wellFormed {c : Config} (h : c.wellFormed = true) :
    c.exitWord ≠ 0x00E0 ∧ c.exitWord ≠ 0x00EE ∧ opField c.exitWord = 0 := by
  simp only [Config.wellFormed, Config.exitWordOk, Bool.and_eq_true, decide_eq_true_eq, beq_iff_eq] at h
  obtain ⟨⟨⟨⟨⟨hcls, hret⟩, hop⟩, -⟩, -⟩, -⟩ := h
  exact ⟨hcls, hret, hop⟩

/-- R64: the three exact words lie in family 0, so a word of another family goes to the family match. -/
theorem decodeWord_of_opField_ne_zero {exitWord w : Word} (he : opField exitWord = 0) (hw : opField w ≠ 0) :
    decodeWord exitWord w = decodeFamily w := by
  have hne : ∀ e : Word, opField e = 0 → w ≠ e := fun e h hwe => hw (hwe ▸ h)
  rw [decodeWord, if_neg (hne _ (by decide)), if_neg (hne _ (by decide)), if_neg (hne _ he)]

/-- The three rows of R65 whose words are matched exactly. -/
def Instr.isExact : Instr → Bool
  | .cls | .ret | .exit => true
  | _ => false

/-- R65 to R69: every row with operands lies outside family 0. -/
theorem opField_encode_ne_zero {i : Instr} (exitWord : Word) (hi : i.isExact = false) :
    opField (encode exitWord i) ≠ 0 := by
  cases i with
  | cls | ret | exit => cases hi
  | _ => simp [encode]

/-- R64 steps 2 to 4: the family match recovers the instruction and its operands from the fields. -/
theorem decodeFamily_encode {i : Instr} (exitWord : Word) (hi : i.isExact = false) :
    decodeFamily (encode exitWord i) = .ok i := by
  cases i with
  | cls | ret | exit => cases hi
  | skp x | sknp x => simp [encode, decodeFamily, decodeKey]
  | ldVxDt x | ldVxK x | ldDtVx x | ldStVx x | addI x | ldF x | ldB x | storeRegs x | loadRegs x =>
    simp [encode, decodeFamily, decodeMisc]
  | ldReg x y | orReg x y | andReg x y | xorReg x y | addReg x y | subReg x y | shr x y | subnReg x y | shl x y =>
    simp [encode, decodeFamily, decodeAlu]
  | _ => simp [encode, decodeFamily]

/-- Decoding an encoded instruction gives it back (R64), under R5's constraints on EXIT_WORD. -/
theorem decodeWord_encode {c : Config} (hc : c.wellFormed = true) (i : Instr) :
    decodeWord c.exitWord (encode c.exitWord i) = .ok i := by
  obtain ⟨hcls, hret, hop⟩ := Config.exitWord_of_wellFormed hc
  cases hi : i.isExact with
  | false =>
    rw [decodeWord_of_opField_ne_zero hop (opField_encode_ne_zero _ hi), decodeFamily_encode _ hi]
  | true =>
    cases i with
    | cls => rfl
    | ret => rfl
    | exit => exact (if_neg hcls).trans ((if_neg hret).trans (if_pos rfl))
    | _ => cases hi

/-- The encoder's word as a number is the one the opcode map's pattern gives (R65 to R69). -/
theorem encode_toNat (exitWord : Word) (i : Instr) : (encode exitWord i).toNat = opcodeMapWord exitWord i := by
  cases i with
  | cls | ret | exit => rfl
  | jp nnn | call nnn | ldI nnn | jpV0 nnn => exact formatA_toNat _ nnn
  | seReg x y | ldReg x y | orReg x y | andReg x y | xorReg x y | addReg x y | subReg x y | shr x y | subnReg x y
  | shl x y | sneReg x y => exact formatXYN_toNat _ x y _
  | drw x y n => exact formatXYN_toNat _ x y n
  | _ => exact formatXK_toNat ..

/-- The encoder gives the word of the opcode map's pattern. -/
theorem encode_eq_ofNat (exitWord : Word) (i : Instr) :
    encode exitWord i = BitVec.ofNat 16 (opcodeMapWord exitWord i) := by
  rw [← encode_toNat, BitVec.ofNat_toNat, BitVec.setWidth_eq]

/-- Settles O1: the map's word is the encoder's, and the layered match inverts the encoder. -/
theorem encodeThenDecodeReturnsTheInstruction : Obligations.EncodeThenDecodeReturnsTheInstruction := by
  intro c i hc _
  have hdec := decodeWord_encode hc i
  have henc := encode_eq_ofNat c.exitWord i
  exact ⟨henc ▸ hdec, henc, hdec⟩

end Sys2Proof
end

section
/-! The invariant: RESET establishes it and every operation on memory keeps it. -/

namespace Sys2Proof.Machine

/-- The invariant reads memory and the configuration alone. -/
theorem State.Inv.congr {s t : State} (h : s.Inv) (hc : t.cfg = s.cfg) (hm : t.mem = s.mem) : t.Inv where
  memory := by rw [hc, hm]; exact h.memory
  lowRegion := by rw [hm]; exact h.lowRegion
  config := by rw [hc]; exact h.config

/-- A block write from PROG_BASE upward keeps the invariant (R44, R47). -/
theorem State.Inv.writeBlock {s : State} {a : Nat} (h : s.Inv) (ha : progBase ≤ a) (bs : List Byte) :
    (s.writeBlock a bs).Inv := by
  have hc : (s.writeBlock a bs).cfg = s.cfg := by rw [State.writeBlock_eq]
  exact ⟨hc ▸ State.writeBlock_wf h.memory, State.writeBlock_lowest ha h.lowRegion, hc ▸ h.config⟩

/-- The state after RESET meets the invariant: its memory lists nothing (R28, R220). -/
theorem State.resetAt_inv {cfg : Config} (hc : cfg.wellFormed = true) (now : Rat) (draws : Nat) :
    (State.resetAt cfg now draws).Inv where
  memory := State.resetAt_wf cfg now draws
  lowRegion := fun _ hcell => absurd hcell List.not_mem_nil
  config := hc

/-- Settles O6: memory lists nothing after RESET, and the default configuration meets R5. -/
theorem resetStateMeetsTheInvariant : Obligations.ResetStateMeetsTheInvariant :=
  ⟨fun _ now draws hc => State.resetAt_inv hc now draws, State.resetAt_inv (by decide) resetTime 0⟩

/-- No instruction changes the configuration (R26). -/
theorem exec_cfg {i : Instr} {s t : State} (h : exec i s = .next t) : t.cfg = s.cfg :=
  exec_changesOnly h .cfg (by cases i <;> simp [mayChange])

/-- A store's range check keeps it out of the reserved low region (R44). -/
theorem progBase_le_of_not_blockFaults {a n : Nat} (hn : n ≠ 0) (h : ¬ blockFaults progBase a n = true) :
    progBase ≤ a :=
  ((blockFaults_eq_false.mp (Bool.eq_false_iff.mpr h)).resolve_left hn).1

/-- What an instruction can do to the fault latch and to memory's data: it raises a fault, which changes the latch
alone (R193); or the latch stays, and memory either stays or takes one block from PROG_BASE upward (R44). -/
theorem exec_fault_mem_cases {i : Instr} {s t : State} (h : exec i s = .next t) :
    (∃ f, t = s.setFault f) ∨
    (t.fault = s.fault ∧
      (t.mem = s.mem ∨ ∃ a bs, progBase ≤ a ∧ t.mem = (s.writeBlock a bs).mem)) := by
  cases i with
  | ret =>
    simp only [exec, execRet] at h
    split at h
    next => cases h; exact .inl ⟨_, rfl⟩
    next hp =>
      obtain ⟨-, -, rfl⟩ := State.pop_eq_some hp
      cases h; exact .inr ⟨rfl, .inl rfl⟩
  | call nnn =>
    simp only [exec, execCall] at h
    split at h
    next => cases h; exact .inl ⟨_, rfl⟩
    next hp =>
      obtain ⟨_, rfl⟩ := State.push_eq_some hp
      cases h; exact .inr ⟨rfl, .inl rfl⟩
  | ldB x =>
    simp only [exec, execLdB] at h
    split at h
    next => cases h; exact .inl ⟨_, rfl⟩
    next hf =>
      cases h
      have ha := progBase_le_of_not_blockFaults (by decide) hf
      exact .inr ⟨by rw [State.writeBlock_eq], .inr ⟨_, _, ha, rfl⟩⟩
  | storeRegs x =>
    simp only [exec, execStoreRegs] at h
    split at h
    next => cases h; exact .inl ⟨_, rfl⟩
    next hf =>
      cases h
      have ha := progBase_le_of_not_blockFaults (Nat.succ_ne_zero _) hf
      exact .inr ⟨by rw [State.writeBlock_eq], .inr ⟨_, _, ha, rfl⟩⟩
  | loadRegs x =>
    simp only [exec, execLoadRegs] at h
    split at h
    next => cases h; exact .inl ⟨_, rfl⟩
    next => cases h; rw [State.setRegsFrom_eq]; exact .inr ⟨rfl, .inl rfl⟩
  | drw x y n =>
    simp only [exec, execDrw] at h
    split at h
    next => cases h; exact .inl ⟨_, rfl⟩
    next => cases h; rw [drawSprite, writeCollision_eq]; exact .inr ⟨rfl, .inl rfl⟩
  | seImm | sneImm | seReg | sneReg => cases h; rw [skipIf_eq]; exact .inr ⟨rfl, .inl rfl⟩
  | skp x | sknp x | ldVxK x => cases h; split <;> exact .inr ⟨rfl, .inl rfl⟩
  | _ => cases h; exact .inr ⟨rfl, .inl rfl⟩

/-- Every instruction keeps the invariant: what it stores lies from PROG_BASE upward. -/
theorem exec_keepsInv {i : Instr} {s t : State} (hs : s.Inv) (h : exec i s = .next t) : t.Inv := by
  rcases exec_fault_mem_cases h with ⟨f, rfl⟩ | ⟨-, hm | ⟨a, bs, ha, hm⟩⟩
  · exact hs.congr rfl rfl
  · exact hs.congr (exec_cfg h) hm
  · refine (hs.writeBlock ha bs).congr ?_ hm
    rw [exec_cfg h, State.writeBlock_eq]

/-- R86: a step that answers a next state has one from its instruction, and the timer sync at most after it. -/
theorem finishStep_eq_next {o : Host.Outcome State Fault Refusal} {t : State} (h : finishStep o = .next t) :
    ∃ u, o = .next u ∧ (t = u ∨ t = timerSync u) := by
  cases o with
  | next u =>
    refine ⟨u, rfl, ?_⟩
    simp only [finishStep] at h
    split at h
    · cases h; exact .inl rfl
    · cases h; exact .inr rfl
  | fault f => cases h
  | refused r => cases h

/-- STEP keeps the invariant, case by case of what a step can do (R82 to R86). -/
theorem stepWith_keepsInv {inp : StepInput} {s t : State} (hs : s.Inv) (h : stepWith inp s = .next t) : t.Inv := by
  rcases stepWith_cases inp s with ⟨-, he⟩ | ⟨-, -, he⟩ | ⟨_, _, -, -, he⟩ | ⟨_, i, -, -, he⟩ <;> rw [he] at h
  · cases h; exact hs
  · cases h; exact hs.congr rfl rfl
  · cases h; exact hs.congr rfl rfl
  · obtain ⟨u, hu, ht⟩ := finishStep_eq_next h
    have hadv : (advance (s.accept inp)).Inv := hs.congr rfl rfl
    have hexec : u.Inv := exec_keepsInv hadv hu
    rcases ht with rfl | rfl
    · exact hexec
    · exact hexec.congr rfl rfl

/-- The host's transactions keep the invariant (R80). -/
theorem transact_keepsInv {tr : Transaction} {s t : State} (hs : s.Inv) (h : transact tr s = .next t) : t.Inv := by
  cases tr with
  | reset now => cases h; exact State.resetAt_inv hs.config now s.draws
  | load image =>
    simp only [transact, loadTransaction] at h
    split at h
    · cases h; exact hs.writeBlock le_rfl image
    · cases h
  | setKey v => cases h; exact hs.congr rfl rfl
  | step inp => exact stepWith_keepsInv hs h

/-- Settles O19: by the cases of a step and of a transaction; the host's key write before `step` touches neither
memory nor the configuration. -/
theorem everyStepKeepsTheInvariant : Obligations.EveryStepKeepsTheInvariant := by
  intro s t inp tr hs
  have hhost : (hostActs s).Inv := hs.congr rfl rfl
  exact ⟨stepWith_keepsInv hhost, stepWith_keepsInv hs, transact_keepsInv hs⟩

end Sys2Proof.Machine
end

section
/-! The program counter after an instruction (R110). -/

namespace Sys2Proof.Machine

/-- D11: a faulting instruction leaves the counter after the instruction. -/
theorem exec_pc_of_fault {i : Instr} {s t : State} (hs : s.fault = none) (h : exec i s = .next t)
    (ht : t.fault ≠ none) : t.pc = s.pc := by
  rcases exec_fault_mem_cases h with ⟨f, rfl⟩ | ⟨hf, -⟩
  · rfl
  · exact absurd (hf.trans hs) ht

/-- The absolute address as a number (R63). -/
theorem absoluteAddr_eq_ofNat (nnn : Addr) : absoluteAddr nnn = BitVec.ofNat 16 nnn.toNat :=
  (BitVec.ofNat_toNat 16 nnn).symm

/-- R109's target as a number; the sum is not reduced modulo 4096 (decision D24). -/
theorem indexedTarget_eq_ofNat (s : State) (nnn : Addr) :
    indexedTarget s nnn = BitVec.ofNat 16 (nnn.toNat + (s.reg 0).toNat) := by
  rw [BitVec.ofNat_add, BitVec.ofNat_toNat, BitVec.ofNat_toNat]
  rfl

/-- R170's match through the latch's value as a number. -/
theorem keyMatches_iff_map {s : State} {x : Nibble} :
    keyMatches s x = true ↔ s.key.map (fun k => k.toNat) = some (s.reg x).toNat :=
  keyMatches_iff.trans Option.map_eq_some_iff.symm

/-- RET without a fault returns to the slot below the old depth (R101). -/
theorem execRet_pc {s t : State} (h : execRet s = .next t) (ht : t.fault = none) :
    t.pc = s.stack.toList.getD (s.depth.val - 1) 0 := by
  simp only [execRet] at h
  split at h
  next => cases h; cases ht
  next hp =>
    obtain ⟨hd, rfl, rfl⟩ := State.pop_eq_some hp
    cases h
    rw [List.getD_eq_getElem _ _ (by simp; omega), Vector.getElem_toList]
    rfl

/-- CALL without a fault jumps to its address (R104). -/
theorem execCall_pc {nnn : Addr} {s t : State} (h : execCall nnn s = .next t) (ht : t.fault = none) :
    t.pc = absoluteAddr nnn := by
  simp only [execCall] at h
  split at h
  next => cases h; cases ht
  next => cases h; rfl

/-- Settles O27: a fault leaves the counter; without one the control-flow, key-skip and key-wait rows set it as R110
says, and the frame of every other row keeps it. -/
theorem counterAfterEachInstruction : Obligations.CounterAfterEachInstruction := by
  intro i s t hs h
  refine ⟨exec_pc_of_fault hs h, fun ht => ?_⟩
  cases i with
  | seImm | sneImm | seReg | sneReg => cases h; simp [skipIf_eq]
  | skp x | sknp x =>
    cases h
    simp only [← keyMatches_iff_map]
    split <;> rfl
  | jp nnn => cases h; exact absoluteAddr_eq_ofNat nnn
  | call nnn => exact (execCall_pc h ht).trans (absoluteAddr_eq_ofNat nnn)
  | jpV0 nnn => cases h; exact indexedTarget_eq_ofNat s nnn
  | ret => exact execRet_pc h ht
  | exit => cases h; rfl
  | ldVxK x => cases h; cases hk : s.key <;> simp
  | _ => exact exec_changesOnly h .pc (by simp [mayChange])

end Sys2Proof.Machine
end

section
/-! Who writes what (R12 to R22, R46): a part that an instruction changes is one of those it may change. -/

namespace Sys2Proof.Machine

/-- The frame read backwards: what an instruction changed, it may change. -/
theorem mayChange_of_changed {i : Instr} {s t : State} {p : Part} (h : exec i s = .next t) (hp : ¬ sameAt s t p) :
    mayChange i p := by
  by_contra hn
  exact hp (exec_changesOnly h p hn)

/-- Settles O22: an instruction that may change VF writes the flag or has VF as its destination. -/
theorem onlyTheListedInstructionsChangeVF : Obligations.OnlyTheListedInstructionsChangeVF := by
  intro i s t h hvf
  have hmay : mayChange i (.reg 0xF) := mayChange_of_changed h hvf
  cases i with
  | addReg x y | subReg x y | shr x y | subnReg x y | shl x y => exact .inl ⟨x, y, by simp⟩
  | drw x y n => exact .inr (.inl ⟨x, y, n, rfl⟩)
  | ldImm x kk | addImm x kk | rnd x kk =>
    obtain rfl : 0xF = x := Part.reg.inj hmay
    exact .inr (.inr (.inl ⟨kk, by simp⟩))
  | ldReg x y | orReg x y | andReg x y | xorReg x y =>
    obtain rfl : 0xF = x := Part.reg.inj hmay
    exact .inr (.inr (.inr (.inl ⟨y, by simp⟩)))
  | ldVxDt x =>
    obtain rfl : 0xF = x := Part.reg.inj hmay
    simp
  | ldVxK x =>
    obtain rfl : 0xF = x := by simpa [mayChange] using hmay
    simp
  | loadRegs x =>
    obtain rfl : x = 0xF := by
      obtain ⟨j, hj, hvfj⟩ := hmay.resolve_left (by simp)
      obtain rfl : 0xF = j := Part.reg.inj hvfj
      exact BitVec.eq_of_toNat_eq (le_antisymm (Nat.le_of_lt_succ x.isLt) hj)
    simp
  | _ => simp [mayChange] at hmay

/-- Settles O23: the index register stands in three rows of `mayChange`. -/
theorem onlyThreeInstructionsChangeTheIndex : Obligations.OnlyThreeInstructionsChangeTheIndex := by
  intro i s t h hi
  have hmay : mayChange i .i := mayChange_of_changed h hi
  cases i with
  | ldI nnn => exact .inl ⟨nnn, rfl⟩
  | addI x => exact .inr (.inl ⟨x, rfl⟩)
  | ldF x => exact .inr (.inr ⟨x, rfl⟩)
  | _ => simp [mayChange] at hmay

/-- Settles O24: the depth counter stands in the rows of CALL and RET, the slots in CALL's. -/
theorem onlyCallAndRetChangeTheStack : Obligations.OnlyCallAndRetChangeTheStack := by
  intro i s t h
  constructor
  · intro hd
    have hmay : mayChange i .depth := mayChange_of_changed h hd
    cases i with
    | ret => exact .inl rfl
    | call nnn => exact .inr ⟨nnn, rfl⟩
    | _ => simp [mayChange] at hmay
  · intro k hk
    have hmay : mayChange i (.slot k) := mayChange_of_changed h hk
    cases i with
    | call nnn => exact ⟨nnn, rfl⟩
    | _ => simp [mayChange] at hmay

/-- R21, R170: an instruction leaves the latch alone or empties it. -/
theorem exec_key_eq_or_none {i : Instr} {s t : State} (h : exec i s = .next t) : t.key = s.key ∨ t.key = none := by
  cases i with
  | skp x =>
    cases h
    split
    · exact .inr rfl
    · exact .inl rfl
  | sknp x =>
    cases h
    split
    · exact .inr rfl
    · exact .inl rfl
  | ldVxK x =>
    cases h
    split
    · exact .inl rfl
    · exact .inr rfl
  | _ => exact .inl (exec_changesOnly h .key (by simp [mayChange]))

/-- Settles O25: a changed latch is an emptied one, and the latch stands in three rows of `mayChange`. -/
theorem onlyKeyInstructionsConsumeTheLatch : Obligations.OnlyKeyInstructionsConsumeTheLatch := by
  intro i s t h hkey
  have hmay : mayChange i .key := mayChange_of_changed h hkey
  refine ⟨(exec_key_eq_or_none h).resolve_left hkey, ?_⟩
  cases i with
  | skp x | sknp x | ldVxK x => exact ⟨x, by simp⟩
  | _ => simp [mayChange] at hmay

/-- R44, R46: an instruction that may change a byte is a store, and the byte lies from PROG_BASE upward. -/
theorem store_of_mayChange_byte {i : Instr} {a : Nat} (h : mayChange i (.byte a)) :
    progBase ≤ a ∧ ∃ x, i = .ldB x ∨ i = .storeRegs x := by
  cases i with
  | ldB x | storeRegs x =>
    obtain ⟨b, hb, ⟨⟩⟩ := h.resolve_left (by simp)
    exact ⟨hb, x, by simp⟩
  | _ => simp [mayChange] at h

/-- Settles O26: bytes stand in the rows of the two stores, pixels in those of the two display instructions. -/
theorem onlyStoresChangeMemoryAndOnlyDisplayTheFramebuffer :
    Obligations.OnlyStoresChangeMemoryAndOnlyDisplayTheFramebuffer := by
  intro i s t h
  constructor
  · intro a ha
    exact (store_of_mayChange_byte (mayChange_of_changed h ha)).2
  · intro r c hpix
    have hmay : mayChange i (.pixel r c) := mayChange_of_changed h hpix
    cases i with
    | cls => exact .inl rfl
    | drw x y n => exact .inr ⟨x, y, n, rfl⟩
    | _ => simp [mayChange] at hmay

end Sys2Proof.Machine
end

section
/-! Memory's contents: canonical data is determined by what it reads as (R20, R47), and what reset memory reads as
(R23, R28). -/

namespace Sys2Proof.Machine

/-- With rising addresses a cell is listed exactly when looking its address up gives its byte. -/
theorem mem_iff_lookupCell {m : List Host.Cell} (h : m.Pairwise fun c d => c.1 < d.1) (a : Nat) (b : Byte) :
    (a, b) ∈ m ↔ lookupCell m a = some b := by
  induction m with
  | nil => simp
  | cons cell rest ih =>
    obtain ⟨hcell, hrest⟩ := List.pairwise_cons.mp h
    rw [List.mem_cons, ih hrest, lookupCell]
    by_cases ha : a = cell.1
    · have hnot : (a, b) ∉ rest := fun hm => (hcell _ hm).ne ha.symm
      rw [if_pos ha, ← ih hrest, or_iff_left hnot, Prod.ext_iff, Option.some.injEq]
      simp [ha, eq_comm]
    · have hne : (a, b) ≠ cell := fun e => ha (congrArg Prod.fst e)
      rw [if_neg ha, or_iff_right hne]

/-- Canonical memory lists exactly the bytes that read differently from what an unlisted address reads as. -/
theorem Memory.wf.mem_iff_read {cfg : Config} {m : Memory} (h : Memory.wf cfg m) (a : Nat) (b : Byte) :
    (a, b) ∈ m ↔ Memory.read cfg m a = b ∧ b ≠ resetByte cfg a := by
  obtain ⟨hrising, hlisted⟩ := h
  have hlook := mem_iff_lookupCell hrising a b
  constructor
  · intro hm
    exact ⟨by rw [Memory.read, hlook.mp hm, Option.getD_some], (hlisted _ hm).2⟩
  · rintro ⟨hread, hne⟩
    rw [hlook]
    cases hl : lookupCell m a with
    | none => exact absurd (by rw [← hread, Memory.read, hl, Option.getD_none]) hne
    | some c => rw [← hread, Memory.read, hl, Option.getD_some]

/-- Settles O21: both lists are strictly rising and list the same cells, those that the reads determine. -/
theorem canonicalMemoriesReadingAlikeAreEqual : Obligations.CanonicalMemoriesReadingAlikeAreEqual := by
  intro cfg m m' h h' hread
  have hirrefl : Std.Irrefl fun c d : Host.Cell => c.1 < d.1 := ⟨fun c => lt_irrefl c.1⟩
  have hantisymm : Std.Antisymm fun c d : Host.Cell => c.1 < d.1 := ⟨fun _ _ hcd hdc => absurd hdc hcd.asymm⟩
  refine h.1.eq_of_mem_iff h'.1 fun cell => ?_
  rw [h.mem_iff_read, h'.mem_iff_read, hread]

/-- R23: row `r` of glyph `d` stands at FONT_BASE + 5 d + r. -/
theorem resetByte_font (cfg : Config) (d : Fin 16) (r : Fin 5) :
    resetByte cfg (cfg.fontBase + 5 * d.val + r.val) = cfg.fontGlyphs[d.val][r.val] := by
  have hoff : cfg.fontBase + 5 * d.val + r.val - cfg.fontBase = 5 * d.val + r.val := by omega
  have hdiv : (5 * d.val + r.val) / 5 = d.val := by omega
  have hmod : (5 * d.val + r.val) % 5 = r.val := by omega
  rw [resetByte, dif_pos (by omega)]
  simp only [fontByte, hoff, hdiv, hmod]

/-- R28: INIT_MEM outside the font table. -/
theorem resetByte_outside_font {cfg : Config} {a : Nat} (h : a < cfg.fontBase ∨ cfg.fontBase + 80 ≤ a) :
    resetByte cfg a = (lookupCell cfg.initMem a).getD 0 := by
  rw [resetByte, dif_neg (by omega)]

/-- R20, R28: reset memory lists nothing, so every address reads as its reset contents. -/
theorem State.readByte_resetAt (cfg : Config) (now : Rat) (draws a : Nat) :
    (State.resetAt cfg now draws).readByte a = resetByte cfg a := rfl

/-- R28: every general register is 0 after reset. -/
theorem State.reg_resetAt (cfg : Config) (now : Rat) (draws : Nat) (x : Nibble) :
    (State.resetAt cfg now draws).reg x = 0 := Vector.getElem_replicate _

/-- R28: every pixel is erased after reset. -/
theorem State.pixel_resetAt (cfg : Config) (now : Rat) (draws : Nat) (r : Fin 32) (c : Fin 64) :
    (State.resetAt cfg now draws).pixel r c = false := Framebuffer.pixel_blank r c

/-- Settles O5: the arrays are constant, memory is the reset contents, and the rest are `State.resetAt`'s fields. -/
theorem resetLeavesTheTableOfResetValues : Obligations.ResetLeavesTheTableOfResetValues := by
  intro s now
  refine ⟨State.resetAt s.cfg now s.draws, rfl, State.reg_resetAt _ _ _, rfl, rfl, rfl,
    fun k => Vector.getElem_replicate _, rfl, rfl, rfl, rfl, State.pixel_resetAt _ _ _, rfl, rfl, rfl, ?_, ?_⟩
  · intro d r
    rw [State.readByte_resetAt, resetByte_font]
  · intro a ha
    rw [State.readByte_resetAt, resetByte_outside_font ha]

end Sys2Proof.Machine
end

section
/-! STEP and the host's transactions: the reserved low region, the timer sync, the sticky fault latch and SETKEY. -/

namespace Sys2Proof.Machine

/-- R44: no instruction changes a byte below PROG_BASE. -/
theorem exec_lowByte {i : Instr} {s t : State} (h : exec i s = .next t) {a : Nat} (ha : a < progBase) :
    t.readByte a = s.readByte a :=
  exec_changesOnly h (.byte a) fun hmay => absurd (store_of_mayChange_byte hmay).1 ha.not_ge

/-- No instruction changes the inputs of its step (R81). -/
theorem exec_input {i : Instr} {s t : State} (h : exec i s = .next t) : t.input = s.input :=
  exec_changesOnly h .input (by cases i <;> simp [mayChange])

/-- R19: `t_last` is written by the timer sync alone, by no instruction. -/
theorem exec_tLast {i : Instr} {s t : State} (h : exec i s = .next t) : t.tLast = s.tLast :=
  exec_changesOnly h .tLast (by cases i <;> simp [mayChange])

/-- Settles O20: what a step does besides its instruction touches neither memory nor the configuration. -/
theorem noStepChangesTheReservedLowRegion : Obligations.NoStepChangesTheReservedLowRegion := by
  intro s t inp h
  rcases stepWith_cases inp s with ⟨-, he⟩ | ⟨-, -, he⟩ | ⟨_, _, -, -, he⟩ | ⟨_, i, -, -, he⟩ <;> rw [he] at h
  · cases h; exact ⟨fun _ _ => rfl, rfl⟩
  · cases h; exact ⟨fun _ _ => rfl, rfl⟩
  · cases h; exact ⟨fun _ _ => rfl, rfl⟩
  · obtain ⟨u, hu, ht⟩ := finishStep_eq_next h
    have hlow : ∀ a, a < 0x200 → u.readByte a = s.readByte a := fun a ha => exec_lowByte hu ha
    have hcfg : u.cfg = s.cfg := (exec_cfg hu).trans rfl
    rcases ht with rfl | rfl <;> exact ⟨hlow, hcfg⟩

/-- R84 to R86: a step that fetches a word of an instruction runs that instruction. -/
theorem stepWith_of_decode {s : State} {w : Word} {i : Instr} (inp : StepInput) (hw : s.Fetches w)
    (hd : decodeWord s.cfg.exitWord w = .ok i) :
    stepWith inp s = finishStep (exec i (advance (s.accept inp))) := by
  have hword : ∀ {w'}, s.Fetches w' → w' = w := fun hw' => hw'.bytes.symm.trans hw.bytes
  rcases stepWith_cases inp s with ⟨hf, -⟩ | ⟨-, hr, -⟩ | ⟨w', e, hw', he, -⟩ | ⟨w', j, hw', hj, hs⟩
  · exact absurd hw.noFault hf
  · exact absurd ⟨hw.low, hw.high⟩ hr
  · rw [hword hw', hd] at he; cases he
  · rw [hword hw', hd] at hj; cases hj; exact hs

/-- R86: without a fault the timer sync ends the step. -/
theorem finishStep_of_noFault {t : State} (h : t.fault = none) : finishStep (.next t) = .next (timerSync t) := by
  simp [finishStep, h]

theorem timerSync_changesOnly (s : State) :
    changesOnly (fun p => p = .dt ∨ p = .st ∨ p = .tLast) s (timerSync s) := fun p hp => by
  cases p with
  | dt | st | tLast => simp at hp
  | _ => rfl

/-- R86 when at least 1/60 second has passed: each timer drops by 1 with floor 0, and `t_last` becomes `now`. -/
theorem timerSync_of_due {s : State} (h : s.input.now - s.tLast ≥ 1 / 60) :
    (timerSync s).dt.toNat = s.dt.toNat - 1 ∧ (timerSync s).st.toNat = s.st.toNat - 1 ∧
      (timerSync s).tLast = s.input.now := by
  have hdue : tickDue s.input.now s.tLast = true := (tickDue_iff _ _).mpr h
  simp [timerSync, tickTimer_toNat, hdue]

/-- R86 otherwise: the timers and `t_last` stay. -/
theorem timerSync_of_not_due {s : State} (h : ¬ s.input.now - s.tLast ≥ 1 / 60) : timerSync s = s := by
  have hdue : tickDue s.input.now s.tLast = false := Bool.eq_false_iff.mpr (mt (tickDue_iff _ _).mp h)
  have htick : ∀ b : Byte, tickTimer false b = b := fun b => BitVec.eq_of_toNat_eq (tickTimer_toNat false b)
  simp [timerSync, htick, hdue]

/-- Settles O16: the step ends in the timer sync of what the instruction left, whose `now` and `t_last` are still those
the step began with. -/
theorem timerSyncEndsEveryStepWithoutFault : Obligations.TimerSyncEndsEveryStepWithoutFault := by
  intro s t w i inp hw hd hexec hf
  have hnow : t.input = inp := exec_input hexec
  have hlast : t.tLast = s.tLast := (exec_tLast hexec).trans rfl
  have hstep : stepWith inp s = .next (timerSync t) := by
    rw [stepWith_of_decode inp hw hd, ← finishStep_of_noFault hf]
    exact congrArg finishStep hexec
  refine ⟨timerSync t, hstep, ?_, ?_, timerSync_changesOnly t⟩ <;> rw [← hnow, ← hlast] <;> intro hdue
  · exact timerSync_of_due hdue
  · rw [timerSync_of_not_due hdue]
    exact ⟨rfl, rfl, rfl⟩

/-- R82, R194: of the transactions only RESET changes a latched fault. -/
theorem transact_keeps_fault {tr : Transaction} {s t : State} {f : Fault} (hs : s.fault = some f)
    (hr : ∀ now, tr ≠ .reset now) (h : transact tr s = .next t) : t.fault = some f := by
  cases tr with
  | reset now => exact absurd rfl (hr now)
  | load image =>
    simp only [transact, loadTransaction] at h
    split at h
    · cases h; rw [State.writeBlock_eq]; exact hs
    · cases h
  | setKey v => cases h; exact hs
  | step inp =>
    simp only [transact, stepWith, hs, Option.isSome_some, if_true] at h
    cases h; exact hs

/-- Settles O10, by induction on the sequence of transactions. -/
theorem faultStaysLatchedUntilReset : Obligations.FaultStaysLatchedUntilReset := by
  intro ts
  induction ts with
  | nil => intro s t f hs _ h; cases h; exact hs
  | cons tr ts ih =>
    intro s t f hs hr h
    obtain ⟨hhead, htail⟩ := forall_and.mp fun now => not_or.mp (mt List.mem_cons.mpr (hr now))
    simp only [transactAll] at h
    split at h
    next u hu => exact ih u t f (transact_keeps_fault hs (fun now e => hhead now e.symm) hu) htail h
    next => cases h
    next => cases h

/-- Settles O9, by the frame of a latch write. -/
theorem setKeyReplacesTheLatch : Obligations.SetKeyReplacesTheLatch :=
  fun s v => ⟨s.setKey v, rfl, rfl, setKey_changesOnly s v⟩

/-- R29, R93: a step that fetches is not invoked on a run that is over. -/
theorem State.Fetches.runOver_eq_false {s : State} {w : Word} (h : s.Fetches w) : s.runOver = false := by
  have hlow := h.low
  have hhalted : s.halted = false := by
    rw [State.halted, beq_eq_false_iff_ne]
    intro hpc
    simp [hpc] at hlow
  rw [State.runOver, hhalted, h.noFault]
  rfl

/-- Settles O29: the step leaves the timer sync of a halted state without a fault, which is the first over state. -/
theorem exitSetsTheHaltSentinel : Obligations.ExitSetsTheHaltSentinel := by
  intro s
  refine ⟨⟨s.setPc 0, rfl, rfl, rfl, setPc_changesOnly s 0⟩, fun w inp ts hw hd => ?_⟩
  have hfault : ((advance (s.accept inp)).setPc 0).fault = none := hw.noFault
  have hstep : stepWith inp s = .next (timerSync ((advance (s.accept inp)).setPc 0)) := by
    rw [stepWith_of_decode inp hw hd, ← finishStep_of_noFault hfault]
    rfl
  have hover : (timerSync ((advance (s.accept inp)).setPc 0)).runOver = true := (runOver_eq_true _).mpr (.inl rfl)
  refine ⟨_, hstep, ?_, (howEnded_eq_normally _).mpr ⟨rfl, hfault⟩⟩
  exact (firstOver_cons (.step inp) ts _ _ hw.runOver_eq_false hstep).trans (firstOver_of_runOver ts _ hover)

end Sys2Proof.Machine
end

section
/-! Single instructions on the stack, the index register, the key latch and the timers. -/

namespace Sys2Proof.Machine

/-- The absolute address is the field's number (R63). -/
theorem absoluteAddr_toNat (nnn : Addr) : (absoluteAddr nnn).toNat = nnn.toNat :=
  BitVec.toNat_setWidth_of_le (by decide)

/-- CALL after a push that succeeds (R104). -/
theorem exec_call_of_push {s s' : State} (nnn : Addr) (h : s.push s.pc = some s') :
    exec (.call nnn) s = .next (s'.setPc (absoluteAddr nnn)) := by
  rw [exec, execCall, h]

/-- RET after a pop that succeeds (R101). -/
theorem exec_ret_of_pop {s s' : State} {ret : Word} (h : s.pop = some (ret, s')) :
    exec .ret s = .next (s'.setPc ret) := by
  rw [exec, execRet, h]

/-- Settles O31: the push below depth 16, then the jump. -/
theorem callPushesTheCounterAndJumps : Obligations.CallPushesTheCounterAndJumps := by
  intro s nnn hd
  cases hp : s.push s.pc with
  | none => exact absurd (State.push_eq_none.mp hp) hd.ne
  | some s' =>
    have hexec := exec_call_of_push nnn hp
    have hframe := push_changesOnly hp
    obtain ⟨_, rfl⟩ := State.push_eq_some hp
    refine ⟨_, hexec, Vector.getElem_set_self _, rfl, absoluteAddr_toNat nnn,
      changesOnly_seq hframe (setPc_changesOnly _ _) fun p => ?_⟩
    rintro ((hp | ⟨_, hp⟩) | hp) <;> simp [hp]

/-- Settles O32: the pop above depth 0, then the return. -/
theorem returnPopsTheCounter : Obligations.ReturnPopsTheCounter := by
  intro s hd
  cases hp : s.pop with
  | none => exact absurd (State.pop_eq_none.mp hp) hd
  | some popped =>
    obtain ⟨ret, s'⟩ := popped
    have hexec := exec_ret_of_pop hp
    have hframe := pop_changesOnly hp
    obtain ⟨-, rfl, rfl⟩ := State.pop_eq_some hp
    exact ⟨_, hexec, rfl, rfl, changesOnly_seq hframe (setPc_changesOnly _ _) fun _ => Or.symm⟩

/-- Settles O46: the sum of 16-bit words, with the frame of an index write. -/
theorem addToIndexWrapsAtSixteenBits : Obligations.AddToIndexWrapsAtSixteenBits := by
  intro s x
  refine ⟨s.setI (indexPlusReg s x), rfl, ?_, setI_changesOnly s _⟩
  have hreg : ((s.reg x).setWidth 16).toNat = (s.reg x).toNat := BitVec.toNat_setWidth_of_le (by decide)
  rw [State.setI_i, indexPlusReg, BitVec.toNat_add, hreg]

/-- Settles O47: the glyph address as a number, with the frame of an index write. -/
theorem glyphAddressIsFiveRowsPerDigit : Obligations.GlyphAddressIsFiveRowsPerDigit :=
  fun s x => ⟨s.setI (glyphAddr s x), rfl, BitVec.toNat_ofNat .., setI_changesOnly s _⟩

/-- Settles O59: by the latch. -/
theorem blockForKeyRewindsOrTakesTheKey : Obligations.BlockForKeyRewindsOrTakesTheKey := by
  intro s x
  cases hk : s.key with
  | none =>
    refine ⟨s.rewind, by rw [exec, execLdVxK, hk], fun _ => ⟨rfl, setPc_changesOnly s _⟩, ?_⟩
    rintro _ ⟨⟩
  | some k =>
    refine ⟨(s.setReg x (k.setWidth 8)).setKey none, by rw [exec, execLdVxK, hk], by rintro ⟨⟩, ?_⟩
    rintro _ ⟨⟩
    refine ⟨?_, rfl, changesOnly_seq (setReg_changesOnly s x _) (setKey_changesOnly _ _) fun _ => id⟩
    rw [show ((s.setReg x (k.setWidth 8)).setKey none).reg x = k.setWidth 8 from State.reg_setReg_self ..]
    exact BitVec.toNat_setWidth_of_le (by decide)

/-- Settles O60: one write each, to a register or to a timer. -/
theorem timerInstructionsCopyTimerAndRegister : Obligations.TimerInstructionsCopyTimerAndRegister :=
  fun s x => ⟨⟨s.setReg x s.dt, rfl, State.reg_setReg_self .., setReg_changesOnly s x _⟩,
    ⟨s.setDt (s.reg x), rfl, rfl, setDt_changesOnly s _⟩,
    ⟨s.setSt (s.reg x), rfl, rfl, setSt_changesOnly s _⟩⟩

end Sys2Proof.Machine
end

section
/-! The block instructions LD B, LD [I], LD Vx,[I] and DRW (R43, R44, R144 to R146, R162), where a step can start
(R83, R84), and the causes of the faults (R191, R192). -/

namespace Sys2Proof.Machine

/-! ## Blocks of memory -/

/-- A block write leaves its `k`-th byte at the `k`-th address (R42). -/
theorem State.readByte_writeBlock_add {s : State} {a k : Nat} {bs : List Byte} (ha : a + bs.length ≤ memSize)
    (hk : k < bs.length) : (s.writeBlock a bs).readByte (a + k) = bs[k] := by
  rw [State.readByte_writeBlock s a (a + k) bs ha, dif_pos (by omega)]
  simp only [Nat.add_sub_cancel_left]

/-- R144: the digits of a byte, hundreds first, as numbers. -/
theorem decimalDigits_toNat (b : Byte) :
    ∃ d₂ d₁ d₀, decimalDigits b = [d₂, d₁, d₀] ∧
      d₂.toNat = b.toNat / 100 ∧ d₁.toNat = b.toNat / 10 % 10 ∧ d₀.toNat = b.toNat % 10 := by
  have hb := b.isLt
  have hdigit : ∀ n < 2 ^ 8, (BitVec.ofNat 8 n).toNat = n := fun n hn =>
    (BitVec.toNat_ofNat n 8).trans (Nat.mod_eq_of_lt hn)
  exact ⟨_, _, _, rfl, hdigit _ (by omega), hdigit _ (by omega), hdigit _ (by omega)⟩

/-- R43: inside its range a block instruction does its work. -/
theorem blockGuard_of_fits {lowest a n : Nat} {s u : State} (hlow : lowest ≤ a) (hhigh : a + n ≤ memSize) :
    (if blockFaults lowest a n then raise .memoryProtection s else .next u) = .next u := by
  rw [blockFaults_eq_false.mpr (.inr ⟨hlow, hhigh⟩)]
  rfl

/-- R43, R193: outside its range a block instruction latches the fault and does nothing else. -/
theorem blockGuard_of_faults {lowest a n : Nat} {s u : State} (hn : n ≠ 0) (h : a < lowest ∨ a + n - 1 > 0xFFF) :
    ∃ t, (if blockFaults lowest a n then raise .memoryProtection s else .next u) = .next t ∧
      t.fault = some .memoryProtection ∧ changesOnly (fun p => p = .fault) s t :=
  ⟨s.setFault .memoryProtection, by rw [if_pos (blockFaults_eq_true.mpr ⟨hn, h⟩), raise_eq], rfl,
    setFault_changesOnly s _⟩

/-- Settles O48: the three digits as one block at the index. -/
theorem decimalDigitsAreStoredAtTheIndex : Obligations.DecimalDigitsAreStoredAtTheIndex := by
  intro s x hlow hhigh
  have hfits : indexAddr s + 3 ≤ memSize := Nat.succ_le_succ hhigh
  obtain ⟨d₂, d₁, d₀, hdigits, h₂, h₁, h₀⟩ := decimalDigits_toNat (s.reg x)
  have hread : ∀ k (hk : k < 3), (s.writeBlock (indexAddr s) [d₂, d₁, d₀]).readByte (indexAddr s + k) =
      [d₂, d₁, d₀][k]'hk := fun k hk => State.readByte_writeBlock_add hfits hk
  refine ⟨_, blockGuard_of_fits hlow hfits, ?_⟩
  rw [hdigits]
  exact ⟨hread 0 (by decide) ▸ h₂, hread 1 (by decide) ▸ h₁, hread 2 (by decide) ▸ h₀,
    writeBlock_changesOnly s _ [d₂, d₁, d₀]⟩

/-- Settles O49: the registers up to `x` as one block at the index. -/
theorem bulkStoreWritesTheRegistersInOrder : Obligations.BulkStoreWritesTheRegistersInOrder := by
  intro s x hlow hhigh
  have hfits : indexAddr s + bulkCount x ≤ memSize := Nat.succ_le_succ hhigh
  refine ⟨_, blockGuard_of_fits hlow hfits, fun j hj => ?_,
    changesOnly_mono (writeBlock_changesOnly s _ _) fun p => ?_⟩
  · have hlen : j.toNat < (s.regsBelow (bulkCount x)).length := by
      rw [State.length_regsBelow]
      exact Nat.lt_succ_of_le hj
    rw [State.readByte_writeBlock_add (by rwa [State.length_regsBelow]) hlen, State.getElem_regsBelow,
      BitVec.ofNat_toNat, BitVec.setWidth_eq]
  · rintro ⟨k, hk, rfl⟩
    rw [State.length_regsBelow] at hk
    exact ⟨k, Nat.le_of_lt_succ hk, rfl⟩

/-- Settles O50: the block at the index as one run of registers from V0 on. -/
theorem bulkLoadReadsTheRegistersInOrder : Obligations.BulkLoadReadsTheRegistersInOrder := by
  intro s x hlow hhigh
  have hfits : indexAddr s + bulkCount x ≤ memSize := Nat.succ_le_succ hhigh
  have hlen : (s.readBlock (indexAddr s) (bulkCount x)).length = x.toNat + 1 := State.length_readBlock ..
  have hregs : 0 + (s.readBlock (indexAddr s) (bulkCount x)).length ≤ 16 := by
    have hx := x.isLt
    omega
  refine ⟨_, blockGuard_of_fits hlow hfits, fun j hj => ?_,
    changesOnly_mono (setRegsFrom_changesOnly s 0 _ hregs) fun p => ?_⟩
  · rw [State.reg_setRegsFrom s 0 _ j hregs, dif_pos (by omega), State.getElem_readBlock]
    rfl
  · rintro ⟨j, hj, rfl⟩
    exact ⟨j, by omega, rfl⟩

/-- Settles O51: the range check of each block instruction. -/
theorem blockInstructionsFaultOutsideTheirRange : Obligations.BlockInstructionsFaultOutsideTheirRange := by
  intro s x y n
  exact ⟨fun h => blockGuard_of_faults (by decide) h,
    fun h => ⟨blockGuard_of_faults (Nat.succ_ne_zero _) h, blockGuard_of_faults (Nat.succ_ne_zero _) h⟩,
    fun ⟨hn, h⟩ => blockGuard_of_faults (Nat.one_le_iff_ne_zero.mp hn) (.inr h)⟩

/-! ## Where a step starts -/

/-- R83, R84, R193: with `pc` out of range a step latches the fault and does nothing else. -/
theorem stepWith_of_pc_out_of_range {s : State} (inp : StepInput) (hf : s.fault = none)
    (hpc : s.pc.toNat < 0x200 ∨ 0xFFE < s.pc.toNat) : stepWith inp s = .next (s.setFault .memoryProtection) := by
  have hno : ∀ w, ¬ s.Fetches w := fun w hw => by
    have hlow := hw.low
    have hhigh := hw.high
    omega
  rcases stepWith_cases inp s with ⟨hf', -⟩ | ⟨-, -, he⟩ | ⟨w, -, hw, -⟩ | ⟨w, -, hw, -⟩
  · exact absurd hf hf'
  · exact he
  · exact absurd hw (hno w)
  · exact absurd hw (hno w)

/-- Settles O13, with the frame of a latched fault. -/
theorem counterOutOfRangeFaultsWithNothingChanged : Obligations.CounterOutOfRangeFaultsWithNothingChanged :=
  fun s inp hf hpc => ⟨_, stepWith_of_pc_out_of_range inp hf hpc, rfl, setFault_changesOnly s _⟩

/-- Settles O11: STEP on a fetched word, with any inputs and with the host's acts and draws before it. -/
theorem stepRunsTheDecodedInstruction : Obligations.StepRunsTheDecodedInstruction := by
  intro s w i hw hd _
  refine ⟨fun inp => stepWith_of_decode inp hw hd,
    stepWith_of_decode (drawInput s) ((hostActs_fetches s w).mpr hw) hd, fun t => ?_⟩
  cases ht : t.fault <;> simp [finishStep, ht]

/-! ## The causes of the faults -/

/-- The fault that an instruction raises in a state, if any (R191 M3 to M10, R192 S1 and S2). -/
def faultOf (i : Instr) (s : State) : Option Fault :=
  match i with
  | .call _ => if s.depth.val = 16 then some .stack else none
  | .ret => if s.depth.val = 0 then some .stack else none
  | .ldB _ => if blockFaults progBase (indexAddr s) 3 then some .memoryProtection else none
  | .storeRegs x | .loadRegs x =>
    if blockFaults progBase (indexAddr s) (bulkCount x) then some .memoryProtection else none
  | .drw _ _ n => if blockFaults 0 (indexAddr s) n.toNat then some .memoryProtection else none
  | _ => none

/-- The causes lie in the index register and the stack depth, which the fetch leaves alone (R84). -/
theorem faultOf_advance (i : Instr) (s : State) (inp : StepInput) :
    faultOf i (advance (s.accept inp)) = faultOf i s := by
  cases i <;> rfl

/-- A block instruction's fault is that of its range check, when its work leaves the latch alone. -/
theorem blockGuard_fault {b : Bool} {s t u : State}
    (h : (if b then raise .memoryProtection s else .next u) = .next t) (hu : u.fault = none) :
    t.fault = if b then some .memoryProtection else none := by
  cases b with
  | false => cases h; exact hu
  | true => cases h; rfl

/-- `faultOf` is what `exec` latches. -/
theorem exec_fault {i : Instr} {s t : State} (hs : s.fault = none) (h : exec i s = .next t) :
    t.fault = faultOf i s := by
  cases i with
  | call nnn =>
    cases hp : s.push s.pc with
    | none =>
      rw [exec, execCall, hp] at h
      cases h
      exact (if_pos (State.push_eq_none.mp hp)).symm
    | some s' =>
      rw [exec_call_of_push nnn hp] at h
      obtain ⟨hd, rfl⟩ := State.push_eq_some hp
      cases h
      exact hs.trans (if_neg hd.ne).symm
  | ret =>
    cases hp : s.pop with
    | none =>
      rw [exec, execRet, hp] at h
      cases h
      exact (if_pos (State.pop_eq_none.mp hp)).symm
    | some popped =>
      obtain ⟨hd, -, hs'⟩ := State.pop_eq_some (ret := popped.1) (s' := popped.2) hp
      rw [exec_ret_of_pop (ret := popped.1) (s' := popped.2) hp, hs'] at h
      cases h
      exact hs.trans (if_neg hd).symm
  | ldB x | storeRegs x => exact blockGuard_fault h (by rw [State.writeBlock_eq]; exact hs)
  | loadRegs x => exact blockGuard_fault h (by rw [State.setRegsFrom_eq]; exact hs)
  | drw x y n => exact blockGuard_fault h (by rw [drawSprite, writeCollision_eq]; exact hs)
  | _ => exact (exec_changesOnly h .fault (by simp [mayChange])).trans hs

/-- R43, R44: the range check as the cause of a fault. -/
theorem blockFault_eq_some {lowest a n : Nat} {f : Fault} :
    (if blockFaults lowest a n then some f else none) = some f ↔ n ≠ 0 ∧ (a < lowest ∨ a + n - 1 > 0xFFF) := by
  rw [Option.ite_none_right_eq_some, blockFaults_eq_true, and_iff_left rfl]

/-- R191, M3 to M10: the instructions that raise MemoryProtectionFault, and when. -/
theorem faultOf_eq_memoryProtection {i : Instr} {s : State} :
    faultOf i s = some .memoryProtection ↔
      (∃ x, i = .storeRegs x ∧ (s.i.toNat < 0x200 ∨ s.i.toNat + x.toNat > 0xFFF)) ∨
      (∃ x, i = .loadRegs x ∧ (s.i.toNat < 0x200 ∨ s.i.toNat + x.toNat > 0xFFF)) ∨
      (∃ x, i = .ldB x ∧ (s.i.toNat < 0x200 ∨ s.i.toNat + 2 > 0xFFF)) ∨
      (∃ x y n, i = .drw x y n ∧ n.toNat ≥ 1 ∧ s.i.toNat + n.toNat - 1 > 0xFFF) := by
  cases i with
  | storeRegs x | loadRegs x => rw [faultOf, blockFault_eq_some]; simp [bulkCount, indexAddr, progBase]
  | ldB x => rw [faultOf, blockFault_eq_some]; simp [indexAddr, progBase]
  | drw x y n => rw [faultOf, blockFault_eq_some]; simp [indexAddr, Nat.one_le_iff_ne_zero]
  | _ => simp [faultOf]

/-- R192, S1 and S2: CALL on a full stack and RET on an empty one. -/
theorem faultOf_eq_stack {i : Instr} {s : State} :
    faultOf i s = some .stack ↔ (∃ nnn, i = .call nnn ∧ s.depth.val = 16) ∨ (i = .ret ∧ s.depth.val = 0) := by
  cases i <;> simp [faultOf]

/-- R192, X1: no instruction raises DecodeFault. -/
theorem faultOf_ne_decode {i : Instr} {s : State} : faultOf i s ≠ some .decode := by
  cases i <;> simp [faultOf]

/-- The end of a step leaves the latch as the instruction left it (R86). -/
theorem finishStep_fault {o : Host.Outcome State Fault Refusal} {t : State} (h : finishStep o = .next t) :
    ∃ u, o = .next u ∧ t.fault = u.fault := by
  obtain ⟨u, hu, rfl | rfl⟩ := finishStep_eq_next h
  · exact ⟨_, hu, rfl⟩
  · exact ⟨u, hu, rfl⟩

/-- A state fetches one word. -/
theorem State.Fetches.exists_iff {s : State} {w : Word} (hw : s.Fetches w) {P : Word → Prop} :
    (∃ w', s.Fetches w' ∧ P w') ↔ P w := by
  refine ⟨fun ⟨w', hw', hP⟩ => ?_, fun hP => ⟨w, hw, hP⟩⟩
  rwa [← hw.bytes.symm.trans hw'.bytes] at hP

/-- Settles O17, case by case of what a step can do: the range check, an illegal word, an instruction. -/
theorem faultCausesAreExactlyTheLists : Obligations.FaultCausesAreExactlyTheLists := by
  intro s t inp hf h
  rcases stepWith_cases inp s with ⟨hf', -⟩ | ⟨-, hr, he⟩ | ⟨w, e, hw, hd, he⟩ | ⟨w, i, hw, hd, he⟩
  · exact absurd hf hf'
  · have hno : ∀ w, ¬ s.Fetches w := fun w hw => hr ⟨hw.low, hw.high⟩
    have hout : s.pc.toNat < 0x200 ∨ 0xFFE < s.pc.toNat := by omega
    have ht : t.fault = some .memoryProtection := by rw [he] at h; cases h; rfl
    simpa [ht, hno] using hout
  · have ht : t.fault = some .decode := by rw [he] at h; cases h; rfl
    simp [ht, hw.exists_iff, hd, hw.low.not_gt, hw.high.not_gt]
  · have ht : t.fault = faultOf i s := by
      rw [he] at h
      obtain ⟨u, hu, htu⟩ := finishStep_fault h
      have huf : u.fault = faultOf i (advance (s.accept inp)) := exec_fault hf hu
      rw [htu, huf, faultOf_advance]
    simp [ht, hw.exists_iff, hd, hw.low.not_gt, hw.high.not_gt,
      faultOf_eq_memoryProtection, faultOf_eq_stack, faultOf_ne_decode]

end Sys2Proof.Machine
end

section
/-! The layered match of R64 on every word: a word that decodes is the encoder's word, and the words that do not are
those of R70. -/

namespace Sys2Proof

/-! ## Words from their fields -/

/-- A word is its top nibble and the 12 bits below (R61, format A). -/
theorem formatA_fields {w : Word} {op : Nibble} (hop : (opField w).toNat = op.toNat) :
    formatA op (nnnField w) = w := by
  refine BitVec.eq_of_toNat_eq ?_
  rw [formatA_toNat, ← hop]
  simp only [opField, nnnField, BitVec.extractLsb'_toNat, Nat.shiftRight_eq_div_pow]
  omega

/-- A word is its top nibble, `x` and the 8 bits below (R61, format XK). -/
theorem formatXK_fields {w : Word} {op : Nibble} (hop : (opField w).toNat = op.toNat) :
    formatXK op (xField w) (kkField w) = w := by
  refine BitVec.eq_of_toNat_eq ?_
  rw [formatXK_toNat, ← hop]
  simp only [opField, xField, kkField, BitVec.extractLsb'_toNat, Nat.shiftRight_eq_div_pow]
  omega

/-- A word is its four nibbles (R61, format XYN). -/
theorem formatXYN_fields {w : Word} {op : Nibble} (hop : (opField w).toNat = op.toNat) :
    formatXYN op (xField w) (yField w) (nField w) = w := by
  refine BitVec.eq_of_toNat_eq ?_
  rw [formatXYN_toNat, ← hop]
  simp only [opField, xField, yField, nField, BitVec.extractLsb'_toNat, Nat.shiftRight_eq_div_pow]
  omega

/-! ## A word that decodes -/

/-- R67: the encoder writes the sub-selector that family 8's match reads. -/
theorem encode_of_decodeAlu {x y n : Nibble} {i : Instr} (exitWord : Word) (h : decodeAlu x y n = .ok i) :
    encode exitWord i = formatXYN 0x8 x y n := by
  rw [decodeAlu] at h
  split at h
  case h_10 => cases h
  all_goals
    next hn =>
      cases h
      exact congrArg (formatXYN 0x8 x y) (BitVec.eq_of_toNat_eq hn.symm)

/-- R68: the encoder writes the sub-selector that family E's match reads. -/
theorem encode_of_decodeKey {x : Nibble} {kk : Byte} {i : Instr} (exitWord : Word) (h : decodeKey x kk = .ok i) :
    encode exitWord i = formatXK 0xE x kk := by
  rw [decodeKey] at h
  split_ifs at h with hskp hsknp <;> cases h
  · rw [hskp, encode]
  · rw [hsknp, encode]

/-- R69: the encoder writes the sub-selector that family F's match reads. -/
theorem encode_of_decodeMisc {x : Nibble} {kk : Byte} {i : Instr} (exitWord : Word) (h : decodeMisc x kk = .ok i) :
    encode exitWord i = formatXK 0xF x kk := by
  rw [decodeMisc] at h
  split_ifs at h <;> cases h <;> simp [encode, *]

/-- R64 steps 2 to 4: the encoder puts the fields that the family match reads back in their places. -/
theorem encode_of_decodeFamily {w : Word} {i : Instr} (exitWord : Word) (h : decodeFamily w = .ok i) :
    encode exitWord i = w := by
  rw [decodeFamily] at h
  -- The case `h_k` is family `k - 1`.
  split at h
  case h_1 => cases h
  case h_2 hop | h_3 hop | h_11 hop | h_12 hop => cases h; exact formatA_fields hop
  case h_4 hop | h_5 hop | h_7 hop | h_8 hop | h_13 hop => cases h; exact formatXK_fields hop
  case h_6 hop | h_10 hop =>
    split_ifs at h with hn
    cases h
    exact (congrArg (formatXYN _ _ _) hn.symm).trans (formatXYN_fields hop)
  case h_14 hop => cases h; exact formatXYN_fields hop
  case h_9 hop => rw [encode_of_decodeAlu _ h, formatXYN_fields hop]
  case h_15 hop => rw [encode_of_decodeKey _ h, formatXK_fields hop]
  case h_16 =>
    have hlt := (opField w).isLt
    have hop : (opField w).toNat = 0xF := by grind
    rw [encode_of_decodeMisc _ h, formatXK_fields hop]

/-- Settles O2: the exact words by their tests, the others by the family match. -/
theorem decodedWordsEncodeBack : Obligations.DecodedWordsEncodeBack := by
  intro exitWord w i h
  rw [decodeWord] at h
  split_ifs at h with hcls hret hexit
  · cases h; exact hcls.symm
  · cases h; exact hret.symm
  · cases h; exact hexit.symm
  · exact encode_of_decodeFamily exitWord h

/-! ## A word that does not decode -/

/-- A test for one row fails to decode where the test fails and so does what follows it. -/
theorem exists_ite_ok_eq_error {p : Prop} [Decidable p] {i : Instr} {r : Except DecodeError Instr} :
    (∃ e, (if p then .ok i else r) = .error e) ↔ ¬ p ∧ ∃ e, r = .error e := by
  split_ifs with hp <;> simp [hp]

/-- R70, family 8. -/
theorem decodeAlu_eq_error {x y n : Nibble} :
    (∃ e, decodeAlu x y n = .error e) ↔ n ∈ [0x8, 0x9, 0xA, 0xB, 0xC, 0xD, 0xF] := by
  have hlt := n.isLt
  simp only [List.mem_cons, List.not_mem_nil, or_false, ← BitVec.toNat_inj]
  rw [decodeAlu]
  split
  case h_10 =>
    simp only [Except.error.injEq, exists_eq', true_iff]
    grind
  all_goals
    next hn => simp [hn]

/-- R70, family E. -/
theorem decodeKey_eq_error {x : Nibble} {kk : Byte} : (∃ e, decodeKey x kk = .error e) ↔ kk ∉ [0x9E, 0xA1] := by
  simp [decodeKey, exists_ite_ok_eq_error]

/-- R70, family F. -/
theorem decodeMisc_eq_error {x : Nibble} {kk : Byte} :
    (∃ e, decodeMisc x kk = .error e) ↔ kk ∉ [0x07, 0x0A, 0x15, 0x18, 0x1E, 0x29, 0x33, 0x55, 0x65] := by
  simp [decodeMisc, exists_ite_ok_eq_error]

/-- R70: the words that the family match rejects, family by family. -/
theorem decodeFamily_eq_error {w : Word} :
    (∃ e, decodeFamily w = .error e) ↔
      opField w = 0x0 ∨
      (opField w = 0x5 ∧ nField w ≠ 0) ∨
      (opField w = 0x8 ∧ nField w ∈ [0x8, 0x9, 0xA, 0xB, 0xC, 0xD, 0xF]) ∨
      (opField w = 0x9 ∧ nField w ≠ 0) ∨
      (opField w = 0xE ∧ kkField w ∉ [0x9E, 0xA1]) ∨
      (opField w = 0xF ∧ kkField w ∉ [0x07, 0x0A, 0x15, 0x18, 0x1E, 0x29, 0x33, 0x55, 0x65]) := by
  rw [← decodeAlu_eq_error (x := xField w) (y := yField w), ← decodeKey_eq_error (x := xField w),
    ← decodeMisc_eq_error (x := xField w)]
  simp only [← BitVec.toNat_inj (x := opField w)]
  rw [decodeFamily]
  -- The case `h_k` is family `k - 1`.
  split
  case h_16 =>
    have hlt := (opField w).isLt
    have hop : (opField w).toNat = 0xF := by grind
    simp [hop]
  all_goals
    next hop => simp [hop, exists_ite_ok_eq_error]

/-- Settles O4: the exact words lie in family 0, and the other families are the family match's. -/
theorem illegalWordsAreThoseOfTheTable : Obligations.IllegalWordsAreThoseOfTheTable := by
  intro c w hc
  obtain ⟨-, -, hexit⟩ := Config.exitWord_of_wellFormed hc
  by_cases hop : opField w = 0
  · simp [decodeWord, exists_ite_ok_eq_error, decodeFamily, hop]
  · rw [decodeWord_of_opField_ne_zero hexit hop, decodeFamily_eq_error]
    exact or_congr_left (iff_of_false hop fun h => hop h.1)

/-- Settles O3: each word is the encoder's at the default configuration, and decoding inverts the encoder. -/
theorem sampleWordsDecodeToTheirInstructions : Obligations.SampleWordsDecodeToTheirInstructions := by
  unfold Obligations.SampleWordsDecodeToTheirInstructions
  have hdec {w : Word} {i : Instr} (h : encode 0x00FD i = w) : decodeWord 0x00FD w = .ok i :=
    h ▸ decodeWord_encode (c := Machine.defaultConfig) (by decide) i
  and_intros
  all_goals exact hdec rfl

end Sys2Proof
end

section
/-! The step cycle: the sticky latch and the state after a fault (R82, R193), every step's answer and its time (R81,
R91), and what the random byte reaches (R171). -/

namespace Sys2Proof.Machine

/-! ## Faulted machines and faulting steps -/

/-- R82: with a latched fault STEP holds the machine still. -/
theorem stepWith_of_fault {s : State} (inp : StepInput) (hf : s.fault ≠ none) : stepWith inp s = .next s := by
  rw [stepWith, if_pos (Option.isSome_iff_ne_none.mpr hf)]

/-- Settles O12: the host's acts before `step` leave the latch, and STEP then holds the state they give. -/
theorem faultedMachineHoldsStill : Obligations.FaultedMachineHoldsStill := fun s hf =>
  ⟨fun inp => stepWith_of_fault inp hf, stepWith_of_fault (s := hostActs s) (drawInput s) hf⟩

/-- R85, X1: a step that fetches an illegal word latches DecodeFault after the fetch's advance. -/
theorem stepWith_of_decode_error {s : State} {w : Word} {e : DecodeError} (inp : StepInput) (hw : s.Fetches w)
    (hd : decodeWord s.cfg.exitWord w = .error e) :
    stepWith inp s = .next ((advance (s.accept inp)).setFault .decode) := by
  have hword : ∀ {w'}, s.Fetches w' → w' = w := fun hw' => hw'.bytes.symm.trans hw.bytes
  rcases stepWith_cases inp s with ⟨hf, -⟩ | ⟨-, hr, -⟩ | ⟨_, _, -, -, hs⟩ | ⟨w', i, hw', hi, -⟩
  · exact absurd hw.noFault hf
  · exact absurd ⟨hw.low, hw.high⟩ hr
  · exact hs
  · rw [hword hw', hd] at hi; cases hi

theorem accept_changesOnly (s : State) (inp : StepInput) :
    changesOnly (fun p => p = .input) s (s.accept inp) := fun p hp => by
  cases p with
  | input => exact absurd rfl hp
  | _ => rfl

/-- R193 items 2 to 4: what a fault after the fetch leaves differs in the latch, in `pc` and in the inputs taken. -/
theorem fault_after_fetch_changesOnly (s : State) (inp : StepInput) (f : Fault) :
    changesOnly (fun p => p = .fault ∨ p = .pc ∨ p = .input) s ((advance (s.accept inp)).setFault f) := by
  have hadvance : changesOnly (fun p => p = .pc ∨ p = .input) s (advance (s.accept inp)) :=
    changesOnly_seq (accept_changesOnly s inp) (setPc_changesOnly _ _) fun _ => Or.symm
  exact changesOnly_seq hadvance (setFault_changesOnly _ f) fun _ => Or.symm

/-- Settles O14, with the frame of a fault after the fetch. -/
theorem illegalWordFaultsWithTheCounterAdvanced : Obligations.IllegalWordFaultsWithTheCounterAdvanced :=
  fun s _ _ inp hw hd => ⟨_, stepWith_of_decode_error inp hw hd, rfl, rfl, fault_after_fetch_changesOnly s inp .decode⟩

/-- R86 (e): after a fault the timer sync does not run. -/
theorem finishStep_of_fault {t : State} (h : t.fault ≠ none) : finishStep (.next t) = .next t := by
  rw [finishStep, if_pos (Option.isSome_iff_ne_none.mpr h)]

/-- R193: an instruction that leaves a fault latched, in a state without one, latched it and did nothing else. -/
theorem exec_eq_setFault {i : Instr} {s t : State} (hs : s.fault = none) (h : exec i s = .next t)
    (ht : t.fault ≠ none) : ∃ f, t = s.setFault f := by
  rcases exec_fault_mem_cases h with hf | ⟨hf, -⟩
  · exact hf
  · exact absurd (hf.trans hs) ht

/-- Settles O15: the instruction latched the fault and did nothing else, and no timer sync followed it. -/
theorem faultingInstructionChangesOnlyCounterAndLatch :
    Obligations.FaultingInstructionChangesOnlyCounterAndLatch := by
  intro s t w i inp hw hd h ht
  rw [stepWith_of_decode inp hw hd] at h
  obtain ⟨u, hu, htu⟩ := finishStep_fault h
  obtain ⟨f, rfl⟩ := exec_eq_setFault (s := advance (s.accept inp)) hw.noFault hu (htu ▸ ht)
  rw [hu, finishStep_of_fault (htu ▸ ht)] at h
  cases h
  exact ⟨rfl, fault_after_fetch_changesOnly s inp f⟩

/-! ## Every step answers, and the time does not go back -/

/-- R43: a range check answers a next state, the fault's or the work's. -/
theorem blockGuard_answers (b : Bool) (s u : State) :
    ∃ t, (if b then raise .memoryProtection s else .next u) = .next t := by
  cases b <;> exact ⟨_, rfl⟩

/-- R91: every instruction answers a next state. -/
theorem exec_answers (i : Instr) (s : State) : ∃ t, exec i s = .next t := by
  cases i with
  | call nnn =>
    cases hp : s.push s.pc with
    | none => exact ⟨_, by rw [exec, execCall, hp, raise_eq]⟩
    | some s' => exact ⟨_, exec_call_of_push nnn hp⟩
  | ret =>
    cases hp : s.pop with
    | none => exact ⟨_, by rw [exec, execRet, hp, raise_eq]⟩
    | some popped => exact ⟨_, exec_ret_of_pop (ret := popped.1) (s' := popped.2) hp⟩
  | ldB | storeRegs | loadRegs | drw => exact blockGuard_answers _ s _
  | _ => exact ⟨_, rfl⟩

/-- R91: STEP answers a next state, case by case of what a step can do. -/
theorem stepWith_answers (inp : StepInput) (s : State) : ∃ t, stepWith inp s = .next t := by
  rcases stepWith_cases inp s with ⟨-, he⟩ | ⟨-, -, he⟩ | ⟨_, _, -, -, he⟩ | ⟨_, i, -, -, he⟩
  · exact ⟨_, he⟩
  · exact ⟨_, he⟩
  · exact ⟨_, he⟩
  · obtain ⟨u, hu⟩ := exec_answers i (advance (s.accept inp))
    exact ⟨_, by rw [he, hu, finishStep]⟩

/-- STEP leaves its own inputs recorded, or those recorded before where it ends before the fetch (R81 to R84). -/
theorem stepWith_input {inp : StepInput} {s t : State} (h : stepWith inp s = .next t) :
    t.input = s.input ∨ t.input = inp := by
  rcases stepWith_cases inp s with ⟨-, he⟩ | ⟨-, -, he⟩ | ⟨_, _, -, -, he⟩ | ⟨_, i, -, -, he⟩ <;> rw [he] at h
  · cases h; exact .inl rfl
  · cases h; exact .inl rfl
  · cases h; exact .inr rfl
  · obtain ⟨u, hu, rfl | rfl⟩ := finishStep_eq_next h <;> exact .inr (exec_input hu)

/-- Settles O18: the recorded time stays or becomes the drawn one, which is not before it. -/
theorem everyStepAnswersANextState : Obligations.EveryStepAnswersANextState := by
  refine fun s => ⟨?_, fun inp => stepWith_answers inp s⟩
  obtain ⟨t, ht⟩ := stepWith_answers (drawInput s) (hostActs s)
  refine ⟨t, ht, ?_⟩
  rcases stepWith_input ht with h | h <;> rw [h]
  · exact le_rfl
  · exact drawInput_now_ge s

/-! ## What the random byte reaches -/

theorem State.writeBlock_accept (s : State) (inp : StepInput) (a : Nat) (bs : List Byte) :
    (s.accept inp).writeBlock a bs = (s.writeBlock a bs).accept inp := by
  induction bs generalizing s a with
  | nil => rfl
  | cons b bs ih => exact ih (s.writeByte a b) (a + 1)

theorem State.setRegsFrom_accept (s : State) (inp : StepInput) (k : Nat) (bs : List Byte) :
    (s.accept inp).setRegsFrom k bs = (s.setRegsFrom k bs).accept inp := by
  induction bs generalizing s k with
  | nil => rfl
  | cons b bs ih => exact ih (s.setReg _ b) (k + 1)

theorem State.push_accept (s : State) (inp : StepInput) (ret : Word) :
    (s.accept inp).push ret = (s.push ret).map (State.accept · inp) := by
  by_cases hd : s.depth.val < 16 <;> simp [State.push, hd, State.accept]

theorem State.pop_accept (s : State) (inp : StepInput) :
    (s.accept inp).pop = s.pop.map fun popped => (popped.1, popped.2.accept inp) := by
  by_cases hd : s.depth.val = 0 <;> simp [State.pop, hd, State.accept]

theorem skipIf_accept (cond : Bool) (s : State) (inp : StepInput) :
    skipIf cond (s.accept inp) = (skipIf cond s).accept inp := by
  cases cond <;> rfl

theorem writeCollision_accept (s : State) (inp : StepInput) (collision : Bool) :
    writeCollision (s.accept inp) collision = (writeCollision s collision).accept inp := by
  cases collision <;> rfl

theorem drawSprite_accept (s : State) (inp : StepInput) (x y n : Nibble) :
    drawSprite x y n (s.accept inp) = (drawSprite x y n s).accept inp :=
  writeCollision_accept (s.setFb _) inp _

/-- A range check that looks at no input answers alike under other inputs, when the work does. -/
theorem blockGuard_accept {b : Bool} {s t u v : State} (inp : StepInput)
    (h : (if b then raise .memoryProtection s else .next u) = .next t) (hv : v = u.accept inp) :
    (if b then raise .memoryProtection (s.accept inp) else .next v) = .next (t.accept inp) := by
  cases b with
  | false => cases h; rw [hv]; rfl
  | true => cases h; rfl

/-- R81: an instruction other than RND does the same under any inputs. -/
theorem exec_accept {i : Instr} {s t : State} (inp : StepInput) (hi : ∀ x kk, i ≠ .rnd x kk)
    (h : exec i s = .next t) : exec i (s.accept inp) = .next (t.accept inp) := by
  cases i with
  | rnd x kk => exact absurd rfl (hi x kk)
  | call nnn =>
    simp only [exec, execCall, State.accept_pc, State.push_accept] at h ⊢
    cases hp : s.push s.pc <;> rw [hp] at h <;> cases h <;> rfl
  | ret =>
    simp only [exec, execRet, State.pop_accept] at h ⊢
    cases hp : s.pop <;> rw [hp] at h <;> cases h <;> rfl
  | ldB x | storeRegs x => exact blockGuard_accept inp h (State.writeBlock_accept ..)
  | loadRegs x => exact blockGuard_accept inp h (State.setRegsFrom_accept ..)
  | drw x y n => exact blockGuard_accept inp h (drawSprite_accept ..)
  | seImm | sneImm | seReg | sneReg => cases h; exact congrArg Host.Outcome.next (skipIf_accept ..)
  | skp x =>
    cases h
    exact congrArg Host.Outcome.next (apply_ite (State.accept · inp) (keyMatches s x) (s.skip.setKey none) s).symm
  | sknp x =>
    cases h
    exact congrArg Host.Outcome.next (apply_ite (State.accept · inp) (keyMatches s x) (s.setKey none) s.skip).symm
  | ldVxK x =>
    simp only [exec, execLdVxK, State.accept_key] at h ⊢
    cases hk : s.key <;> rw [hk] at h <;> cases h <;> rfl
  | _ => cases h; rfl

/-- Settles O28: the inputs of the step with another random byte are other inputs. -/
theorem randomByteReachesOnlyRnd : Obligations.RandomByteReachesOnlyRnd := by
  intro i s t b hi h
  rw [exec_input h]
  exact exec_accept { s.input with rnd := b } hi h

/-- Settles O56: one register write, of a bitwise AND. -/
theorem randomByteIsMasked : Obligations.RandomByteIsMasked := by
  intro s x kk
  refine ⟨s.setReg x (s.input.rnd &&& kk), rfl, fun k _ => ?_, setReg_changesOnly s x _⟩
  rw [State.reg_setReg_self, BitVec.getLsbD_and]

end Sys2Proof.Machine
end

section
/-! Control flow (R100 to R109): jumps, skips, the stack's bounds, and the call and return round trip. -/

namespace Sys2Proof.Machine

/-- Settles O34: the call leaves its counter in the slot at the old depth, and the return pops that slot. -/
theorem callThenReturnRestoresTheCounter : Obligations.CallThenReturnRestoresTheCounter := by
  intro s t u nnn hd hcall hdepth hslot
  obtain ⟨t', hcall', hpushed, hup, -, -⟩ := callPushesTheCounterAndJumps s nnn hd
  obtain rfl : t = t' := Host.Outcome.next.inj (hcall.symm.trans hcall')
  have hu : u.depth.val = s.depth.val + 1 := (congrArg Fin.val hdepth).trans hup
  obtain ⟨v, hret, hpc, hdown, -⟩ := returnPopsTheCounter u (by omega)
  refine ⟨v, hret, ?_, Fin.ext (by omega)⟩
  simp only [hpc, hu, Nat.add_sub_cancel, hslot, hpushed]

/-- Settles O30: one counter write. -/
theorem jumpSetsTheCounterToTheAddress : Obligations.JumpSetsTheCounterToTheAddress :=
  fun s nnn => ⟨s.setPc (absoluteAddr nnn), rfl, absoluteAddr_toNat nnn, setPc_changesOnly s _⟩

/-- Settles O33: a push that fails at depth 16 and a pop that fails at depth 0 latch the fault alone. -/
theorem stackInstructionsFaultAtTheirBounds : Obligations.StackInstructionsFaultAtTheirBounds := by
  intro s
  refine ⟨fun nnn hfull => ⟨s.setFault .stack, ?_, rfl, setFault_changesOnly s _⟩,
    fun hempty => ⟨s.setFault .stack, ?_, rfl, setFault_changesOnly s _⟩⟩
  · rw [exec, execCall, State.push_eq_none.mpr hfull, raise_eq]
  · rw [exec, execRet, State.pop_eq_none.mpr hempty, raise_eq]

/-- R100: the counter after a conditional skip, as a number. -/
theorem skipIf_pc_toNat {cond : Bool} {p : Prop} [Decidable p] (s : State) (h : cond = true ↔ p) :
    (skipIf cond s).pc.toNat = if p then (s.pc.toNat + 2) % 65536 else s.pc.toNat := by
  rw [skipIf_eq, State.setPc_pc, apply_ite BitVec.toNat, BitVec.toNat_add]
  exact if_congr h rfl rfl

/-- The test of SE (R105, R107) as numbers. -/
theorem byte_beq_iff (a b : Byte) : (a == b) = true ↔ a.toNat = b.toNat :=
  beq_iff_eq.trans BitVec.toNat_inj.symm

/-- The test of SNE (R106, R108) as numbers. -/
theorem byte_bne_iff (a b : Byte) : (a != b) = true ↔ a.toNat ≠ b.toNat :=
  bne_iff_ne.trans (not_congr BitVec.toNat_inj.symm)

/-- Settles O35: conditional skips on the register and the immediate. -/
theorem immediateSkipsCompareRegisterAndImmediate : Obligations.ImmediateSkipsCompareRegisterAndImmediate :=
  fun s x kk => ⟨⟨_, rfl, skipIf_pc_toNat s (byte_beq_iff (s.reg x) kk), skipIf_changesOnly _ s⟩,
    ⟨_, rfl, skipIf_pc_toNat s (byte_bne_iff (s.reg x) kk), skipIf_changesOnly _ s⟩⟩

/-- Settles O36: conditional skips on two registers. -/
theorem registerSkipsCompareTwoRegisters : Obligations.RegisterSkipsCompareTwoRegisters :=
  fun s x y => ⟨⟨_, rfl, skipIf_pc_toNat s (byte_beq_iff (s.reg x) (s.reg y)), skipIf_changesOnly _ s⟩,
    ⟨_, rfl, skipIf_pc_toNat s (byte_bne_iff (s.reg x) (s.reg y)), skipIf_changesOnly _ s⟩⟩

/-- R109's target as a number: a 12-bit and an 8-bit operand have a sum below 65536. -/
theorem indexedTarget_toNat (s : State) (nnn : Addr) :
    (indexedTarget s nnn).toNat = nnn.toNat + (s.reg 0).toNat := by
  have hnnn := nnn.isLt
  have hreg := (s.reg 0).isLt
  rw [indexedTarget_eq_ofNat, BitVec.toNat_ofNat, Nat.mod_eq_of_lt (by omega)]

/-- Settles O37: one counter write, of the exact sum. -/
theorem indirectJumpAddsV0 : Obligations.IndirectJumpAddsV0 :=
  fun s nnn => ⟨s.setPc (indexedTarget s nnn), rfl, indexedTarget_toNat s nnn, setPc_changesOnly s _⟩

end Sys2Proof.Machine
end

section
/-! Register loads and the ALU (R120 to R132): one register write without a flag, or the result and then the flag. -/

namespace Sys2Proof.Machine

/-! ## One register write, no flag (R121 to R126) -/

/-- Settles O38: one register write, of the operand. -/
theorem loadImmediateWritesTheRegister : Obligations.LoadImmediateWritesTheRegister :=
  fun s x kk => ⟨s.setReg x kk, rfl, State.reg_setReg_self .., setReg_changesOnly s x _⟩

/-- Settles O39: one register write, of an 8-bit sum. -/
theorem addImmediateWrapsAndSetsNoFlag : Obligations.AddImmediateWrapsAndSetsNoFlag := by
  intro s x kk
  refine ⟨s.setReg x (s.reg x + kk), rfl, ?_, setReg_changesOnly s x _⟩
  rw [State.reg_setReg_self, BitVec.toNat_add]

/-- Settles O40: one register write, of the other register's old value. -/
theorem assignCopiesTheRegister : Obligations.AssignCopiesTheRegister :=
  fun s x y => ⟨s.setReg x (s.reg y), rfl, State.reg_setReg_self .., setReg_changesOnly s x _⟩

/-- Settles O41: one register write, of a bitwise operation. -/
theorem logicInstructionsWorkBitByBit : Obligations.LogicInstructionsWorkBitByBit := by
  intro s x y
  refine ⟨⟨_, rfl, fun k _ => ?_, setReg_changesOnly s x _⟩, ⟨_, rfl, fun k _ => ?_, setReg_changesOnly s x _⟩,
    ⟨_, rfl, fun k _ => ?_, setReg_changesOnly s x _⟩⟩
  · rw [State.reg_setReg_self, BitVec.getLsbD_or]
  · rw [State.reg_setReg_self, BitVec.getLsbD_and]
  · rw [State.reg_setReg_self, BitVec.getLsbD_xor]

/-! ## The flag as a byte (R120, R132) -/

/-- The carry (R127) as the byte that VF receives. -/
theorem flagByte_carryFlag (a b : Byte) : flagByte (carryFlag a b) = if a.toNat + b.toNat > 255 then 1 else 0 :=
  if_congr decide_eq_true_iff rfl rfl

/-- The no-borrow flag (R128, R130) as the byte that VF receives. -/
theorem flagByte_noBorrowFlag (a b : Byte) : flagByte (noBorrowFlag a b) = if a.toNat ≥ b.toNat then 1 else 0 :=
  if_congr decide_eq_true_iff rfl rfl

/-- A bit used as a flag is a digit of the number it is taken from. -/
theorem flagByte_getLsbD_toNat (b : Byte) (k : Nat) : (flagByte (b.getLsbD k)).toNat = b.toNat / 2 ^ k % 2 := by
  have hflag (f : Bool) : (flagByte f).toNat = f.toNat := by cases f <;> rfl
  rw [hflag, ← BitVec.testBit_toNat, Nat.toNat_testBit]

/-- The bit that SHR shifts out (R129) as a number. -/
theorem flagByte_lowBitFlag_toNat (b : Byte) : (flagByte (lowBitFlag b)).toNat = b.toNat % 2 := by
  rw [lowBitFlag, flagByte_getLsbD_toNat, pow_zero, Nat.div_one]

/-- The bit that SHL shifts out (R131) as a number: a byte has no digit above it. -/
theorem flagByte_highBitFlag_toNat (b : Byte) : (flagByte (highBitFlag b)).toNat = b.toNat / 128 := by
  have hb := b.isLt
  rw [highBitFlag, flagByte_getLsbD_toNat]
  omega

/-! ## Operands and results as numbers -/

/-- The difference of two bytes, with the 256 of the borrow added before the subtrahend is taken away. -/
theorem byte_sub_toNat (a b : Byte) : (a - b).toNat = (a.toNat + 256 - b.toNat) % 256 := by
  have hb := b.isLt
  rw [BitVec.toNat_sub]
  omega

/-- R129, R131: the register that SHIFT_USES_VY selects (decision D5), as a number. -/
theorem shiftOperand_toNat (s : State) (x y : Nibble) :
    (shiftOperand s x y).toNat = if s.cfg.shiftUsesVy = true then (s.reg y).toNat else (s.reg x).toNat :=
  apply_ite BitVec.toNat ..

/-! ## The result and then the flag (R127 to R131) -/

/-- Settles O42: the 8-bit sum, then the carry. -/
theorem addSetsSumAndCarry : Obligations.AddSetsSumAndCarry := by
  intro s x y
  refine ⟨_, rfl, fun hx => ?_, ?_, writeResultAndFlag_changesOnly s x _ _⟩
  · rw [reg_writeResultAndFlag_result hx, BitVec.toNat_add]
  · rw [reg_writeResultAndFlag_flag, flagByte_carryFlag]

/-- R128, R130: what the state after a subtraction holds, for either order of the operands. -/
theorem writeDifference_spec (s : State) (x : Nibble) (a b : Byte) :
    let t := writeResultAndFlag s x (a - b) (noBorrowFlag a b)
    (x ≠ 0xF → (t.reg x).toNat = (a.toNat + 256 - b.toNat) % 256) ∧
      t.reg 0xF = (if a.toNat ≥ b.toNat then 1 else 0) ∧
      changesOnly (fun p => p = .reg x ∨ p = .reg 0xF) s t := by
  refine ⟨fun hx => ?_, ?_, writeResultAndFlag_changesOnly s x _ _⟩
  · rw [reg_writeResultAndFlag_result hx, byte_sub_toNat]
  · rw [reg_writeResultAndFlag_flag, flagByte_noBorrowFlag]

/-- Settles O43: SUB takes Vy from Vx, SUBN takes Vx from Vy. -/
theorem subtractionsSetDifferenceAndNoBorrow : Obligations.SubtractionsSetDifferenceAndNoBorrow :=
  fun s x y => ⟨⟨_, rfl, writeDifference_spec s x (s.reg x) (s.reg y)⟩,
    ⟨_, rfl, writeDifference_spec s x (s.reg y) (s.reg x)⟩⟩

/-- Settles O44: the selected register shifted by one, then the bit shifted out. -/
theorem shiftsMoveOneBitIntoTheFlag : Obligations.ShiftsMoveOneBitIntoTheFlag := by
  intro s x y b hb
  obtain rfl : b = (shiftOperand s x y).toNat := hb.trans (shiftOperand_toNat s x y).symm
  refine ⟨⟨_, rfl, fun hx => ?_, ?_, writeResultAndFlag_changesOnly s x _ _⟩,
    ⟨_, rfl, fun hx => ?_, ?_, writeResultAndFlag_changesOnly s x _ _⟩⟩
  · rw [reg_writeResultAndFlag_result hx, BitVec.toNat_ushiftRight, Nat.shiftRight_one]
  · rw [reg_writeResultAndFlag_flag, flagByte_lowBitFlag_toNat]
  · rw [reg_writeResultAndFlag_result hx, BitVec.toNat_shiftLeft, Nat.shiftLeft_eq, pow_one, Nat.mul_comm]
  · rw [reg_writeResultAndFlag_flag, flagByte_highBitFlag_toNat]

end Sys2Proof.Machine
end

section
/-! The index load (R141), and the bulk store undone by the bulk load (R145, R146). -/

namespace Sys2Proof.Machine

/-- Settles O52: the load reads, from the same memory at the same index, the bytes that the store left there. -/
theorem bulkStoreThenLoadRestoresTheRegisters : Obligations.BulkStoreThenLoadRestoresTheRegisters := by
  intro s t u x hlow hhigh hstore hmem hcfg hi
  obtain ⟨t', ht', hstored, -⟩ := bulkStoreWritesTheRegistersInOrder s x hlow hhigh
  obtain rfl : t = t' := Host.Outcome.next.inj (hstore.symm.trans ht')
  obtain ⟨v, hv, hloaded, -⟩ := bulkLoadReadsTheRegistersInOrder u x (hi ▸ hlow) (hi ▸ hhigh)
  refine ⟨v, hv, fun j hj => ?_⟩
  calc v.reg j = u.readByte (u.i.toNat + j.toNat) := hloaded j hj
    _ = t.readByte (indexAddr s + j.toNat) := by rw [State.readByte_congr hcfg hmem, hi, indexAddr]
    _ = s.reg j := hstored j hj

/-- Settles O45: one index write, of the address field. -/
theorem loadIndexSetsTheAddress : Obligations.LoadIndexSetsTheAddress :=
  fun s nnn => ⟨s.setI (absoluteAddr nnn), rfl, absoluteAddr_toNat nnn, setI_changesOnly s _⟩

end Sys2Proof.Machine
end

section
/-! The display (spec/44_display.md): CLS (R161), and DRW as one inversion of the pixels that the sprite covers (R160,
R162 to R164). -/

namespace Sys2Proof.Machine

/-- Settles O53, by the frame of a framebuffer write. -/
theorem clearErasesEveryPixel : Obligations.ClearErasesEveryPixel :=
  fun s => ⟨s.setFb Framebuffer.blank, rfl, Framebuffer.pixel_blank, setFb_changesOnly s _⟩

/-! ## Inverting a set of pixels -/

/-- Drawing the set `S` turns the blit `a` into `b` (R162): exactly the pixels of `S` change, and a collision is
reported if one was before or if a pixel of `S` was set. -/
structure Blit.Inverts (a b : Blit) (S : Fin 32 → Fin 64 → Prop) : Prop where
  changed : ∀ r c, b.fb.pixel r c ≠ a.fb.pixel r c ↔ S r c
  collided : b.collision = true ↔ a.collision = true ∨ ∃ r c, a.fb.pixel r c = true ∧ S r c

section
variable {a b d : Blit} {S T : Fin 32 → Fin 64 → Prop}

theorem Blit.Inverts.congr (h : a.Inverts b S) (hST : ∀ r c, S r c ↔ T r c) : a.Inverts b T where
  changed r c := (h.changed r c).trans (hST r c)
  collided := by simpa only [hST] using h.collided

theorem Blit.inverts_empty (a : Blit) : a.Inverts a fun _ _ => False where
  changed _ _ := by simp
  collided := by simp

theorem Blit.Inverts.unchanged (h : a.Inverts b S) {r : Fin 32} {c : Fin 64} (hS : ¬ S r c) :
    b.fb.pixel r c = a.fb.pixel r c :=
  not_not.mp (mt (h.changed r c).mp hS)

/-- Two disjoint sets one after the other are drawn as their union: the second finds its pixels as they were at the
start. -/
theorem Blit.Inverts.union (hS : a.Inverts b S) (hT : b.Inverts d T) (hdisj : ∀ r c, S r c → ¬ T r c) :
    a.Inverts d fun r c => S r c ∨ T r c := by
  have hkept : ∀ r c, T r c → b.fb.pixel r c = a.fb.pixel r c := fun r c hTrc =>
    hS.unchanged fun hSrc => hdisj r c hSrc hTrc
  constructor
  case changed =>
    intro r c
    by_cases hTrc : T r c
    · rw [← hkept r c hTrc, hT.changed, or_iff_right_of_imp fun _ => hTrc]
    · rw [hT.unchanged hTrc, hS.changed, or_iff_left hTrc]
  case collided =>
    have hfound : (∃ r c, b.fb.pixel r c = true ∧ T r c) ↔ ∃ r c, a.fb.pixel r c = true ∧ T r c :=
      exists₂_congr fun r c => and_congr_left fun hTrc => by rw [hkept r c hTrc]
    rw [hT.collided, hS.collided, hfound, or_assoc]
    simp only [and_or_left, exists_or]

end

/-- A loop that draws pairwise disjoint sets draws their union. -/
theorem Blit.inverts_foldl_range {f : Blit → Nat → Blit} {S : Nat → Fin 32 → Fin 64 → Prop} (a : Blit)
    (n : Nat) (hf : ∀ b i, Blit.Inverts b (f b i) (S i)) (hdisj : ∀ i j r c, i < j → j < n → S i r c → ¬ S j r c) :
    a.Inverts ((List.range n).foldl f a) fun r c => ∃ i, i < n ∧ S i r c := by
  induction n with
  | zero => exact a.inverts_empty.congr (by simp)
  | succ n ih =>
    rw [List.range_succ, List.foldl_append]
    have hinit := ih fun i j r c hij hj => hdisj i j r c hij (Nat.lt_succ_of_lt hj)
    refine (hinit.union (hf _ n) ?_).congr fun r c => Nat.exists_lt_succ_right.symm
    rintro r c ⟨i, hi, hSi⟩
    exact hdisj i n r c hi n.lt_succ_self hSi

/-! ## The sprite blitter -/

/-- R162: one pixel is inverted exactly when the sprite's bit is set. -/
theorem Blit.drawPixel_inverts (a : Blit) (bit : Bool) (r : Fin 32) (c : Fin 64) :
    a.Inverts (a.drawPixel bit r c) fun r' c' => r' = r ∧ c' = c ∧ bit = true where
  changed r' c' := by
    rw [Blit.drawPixel, Framebuffer.pixel_setPixel]
    by_cases h : r' = r ∧ c' = c
    · obtain ⟨rfl, rfl⟩ := h
      cases bit <;> simp
    · rw [if_neg h, ← and_assoc]
      simp [h]
  collided := by simp [Blit.drawPixel, and_comm]

/-- R162, R164: the eight bits of a row land on eight different columns. -/
theorem Blit.drawRow_inverts (a : Blit) (row : Byte) (cx : Nat) (r : Fin 32) :
    a.Inverts (a.drawRow row cx r) fun r' c => ∃ j, j < 8 ∧ r' = r ∧ c = wrapColumn (cx + j) ∧
      row.getLsbD (7 - j) = true := by
  refine Blit.inverts_foldl_range a 8 (fun b j => b.drawPixel_inverts _ _ _) ?_
  rintro i j r' c hij hj ⟨-, hci, -⟩ ⟨-, hcj, -⟩
  have hcol : (cx + i) % 64 = (cx + j) % 64 := congrArg Fin.val (hci.symm.trans hcj)
  omega

/-- The recursion over the sprite's rows as a loop over row numbers. -/
theorem Blit.drawRows_map_range (a : Blit) (cx cy n : Nat) (row : Nat → Byte) :
    a.drawRows cx cy ((List.range n).map row) =
      (List.range n).foldl (fun b i => b.drawRow (row i) cx (wrapRow (cy + i))) a := by
  induction n generalizing a cy row with
  | zero => rfl
  | succ n ih =>
    rw [List.range_succ_eq_map, List.map_cons, List.map_map, List.foldl_cons, List.foldl_map, Blit.drawRows, ih]
    simp only [Function.comp_apply, Nat.add_zero, Nat.succ_eq_add_one, Nat.add_assoc, Nat.add_comm 1]

/-- R160, R162: at most 32 rows land on different rows of the framebuffer. -/
theorem Blit.drawRows_inverts (a : Blit) (cx cy : Nat) {n : Nat} (row : Nat → Byte) (hn : n ≤ 32) :
    a.Inverts (a.drawRows cx cy ((List.range n).map row)) fun r c => ∃ i, i < n ∧ ∃ j, j < 8 ∧
      r = wrapRow (cy + i) ∧ c = wrapColumn (cx + j) ∧ (row i).getLsbD (7 - j) = true := by
  rw [Blit.drawRows_map_range]
  refine Blit.inverts_foldl_range a n (fun b i => b.drawRow_inverts _ _ _) ?_
  rintro i j r c hij hj ⟨-, -, hri, -⟩ ⟨-, -, hrj, -⟩
  have hrow : (cy + i) % 32 = (cy + j) % 32 := congrArg Fin.val (hri.symm.trans hrj)
  omega

/-- R162: the blit of DRW inverts the pixels that the sprite covers. -/
theorem blit_inverts_spriteCovers (s : State) (x y n : Nibble) :
    Blit.Inverts ⟨s.fb, false⟩
      (Blit.drawRows ⟨s.fb, false⟩ (s.reg x).toNat (s.reg y).toNat (s.readBlock (indexAddr s) n.toNat))
      (spriteCovers s x y n) := by
  have hn : n.toNat ≤ 32 := n.isLt.le.trans (by decide)
  refine (Blit.drawRows_inverts _ _ _ (fun i => s.readByte (indexAddr s + i)) hn).congr fun r c => ?_
  simp only [spriteCovers, Fin.ext_iff, wrapRow, wrapColumn, indexAddr, exists_and_left]

/-! ## DRW -/

/-- R163: the collision flag is no pixel. -/
@[simp] theorem pixel_writeCollision (s : State) (collision : Bool) (r : Fin 32) (c : Fin 64) :
    (writeCollision s collision).pixel r c = s.pixel r c := by
  rw [writeCollision_eq]
  rfl

/-- R162: DRW inverts the pixels that the sprite covers. -/
theorem pixel_drawSprite_of_covers {s : State} {x y n : Nibble} {r : Fin 32} {c : Fin 64}
    (h : spriteCovers s x y n r c) : (drawSprite x y n s).pixel r c = !(s.pixel r c) := by
  rw [drawSprite, pixel_writeCollision]
  exact Bool.eq_not.mpr (((blit_inverts_spriteCovers s x y n).changed r c).mpr h)

/-- R162: DRW leaves the other pixels as they are. -/
theorem pixel_drawSprite_of_not_covers {s : State} {x y n : Nibble} {r : Fin 32} {c : Fin 64}
    (h : ¬ spriteCovers s x y n r c) : (drawSprite x y n s).pixel r c = s.pixel r c := by
  rw [drawSprite, pixel_writeCollision]
  exact (blit_inverts_spriteCovers s x y n).unchanged h

open Classical in
/-- R163: VF is written exactly when a set pixel meets a set sprite bit. -/
theorem flag_drawSprite (s : State) (x y n : Nibble) :
    (drawSprite x y n s).reg 0xF =
      if ∃ r c, s.pixel r c = true ∧ spriteCovers s x y n r c then
        collisionValue s.cfg.drawFlagMode (s.reg 0xF) else s.reg 0xF := by
  have hcol := (blit_inverts_spriteCovers s x y n).collided
  rw [or_iff_right Bool.false_ne_true] at hcol
  rw [drawSprite, reg_writeCollision]
  exact if_congr ((and_iff_right rfl).trans hcol) rfl rfl

theorem drawSprite_changesOnly (s : State) (x y n : Nibble) :
    changesOnly (fun p => p = .reg 0xF ∨ ∃ r c, p = .pixel r c) s (drawSprite x y n s) :=
  changesOnly_seq (setFb_changesOnly s _) (writeCollision_changesOnly _ _) fun _ => Or.symm

/-- R43, R162: DRW either latches the fault or draws its sprite. -/
theorem exec_drw_eq (s : State) (x y n : Nibble) : exec (.drw x y n) s =
    .next (if blockFaults 0 (indexAddr s) n.toNat then s.setFault .memoryProtection else drawSprite x y n s) := by
  rw [exec, execDrw, raise_eq, apply_ite Host.Outcome.next]

/-- Settles O54, by what a drawn sprite does to the pixels and to VF. -/
theorem drawXorsTheSpriteAndReportsCollisions : Obligations.DrawXorsTheSpriteAndReportsCollisions := by
  intro s x y n hn
  have hfits : blockFaults 0 (indexAddr s) n.toNat = false :=
    blockFaults_eq_false.mpr (by simp only [indexAddr, memSize]; omega)
  refine ⟨drawSprite x y n s, by rw [exec_drw_eq, hfits]; rfl, fun r c => pixel_drawSprite_of_covers,
    fun r c => pixel_drawSprite_of_not_covers, fun hcollision => ?_, fun hcollision => ?_,
    drawSprite_changesOnly s x y n⟩
  · rw [flag_drawSprite, if_pos hcollision]
    rfl
  · rw [flag_drawSprite, if_neg hcollision]

/-- The sprite that DRW draws lies in its two coordinate registers, the index register and memory. -/
theorem spriteCovers_congr {s t : State} {x y n : Nibble} (hx : t.reg x = s.reg x) (hy : t.reg y = s.reg y)
    (hi : t.i = s.i) (hmem : ∀ a, t.readByte a = s.readByte a) (r : Fin 32) (c : Fin 64) :
    spriteCovers t x y n r c ↔ spriteCovers s x y n r c := by
  simp only [spriteCovers, hx, hy, hi, hmem]

/-- Settles O55: both draws fault, or both change exactly the pixels that the same sprite covers. -/
theorem drawingTwiceRestoresTheFramebuffer : Obligations.DrawingTwiceRestoresTheFramebuffer := by
  intro s t u x y n ht hu hx hy r c
  have hi : t.i = s.i := exec_changesOnly ht .i (by simp [mayChange])
  have hmem : ∀ a, t.readByte a = s.readByte a := fun a => exec_changesOnly ht (.byte a) (by simp [mayChange])
  have hcovers := spriteCovers_congr (n := n) hx hy hi hmem r c
  have hindex : indexAddr t = indexAddr s := congrArg BitVec.toNat hi
  rw [exec_drw_eq] at ht hu
  rw [hindex] at hu
  cases hfaults : blockFaults 0 (indexAddr s) n.toNat with
  | true =>
    rw [hfaults] at ht hu
    cases ht
    cases hu
    rfl
  | false =>
    rw [hfaults] at ht hu
    cases ht
    cases hu
    by_cases hc : spriteCovers s x y n r c
    · exact (pixel_drawSprite_of_covers (hcovers.mpr hc)).trans
        (Bool.not_eq_eq_eq_not.mpr (pixel_drawSprite_of_covers hc))
    · exact (pixel_drawSprite_of_not_covers (mt hcovers.mp hc)).trans (pixel_drawSprite_of_not_covers hc)

end Sys2Proof.Machine
end

section
/-! The key skips (R170, R172, R173): by whether the latch matches the register. -/

namespace Sys2Proof.Machine

/-- The counter after a skip, as a number (R100). -/
theorem State.skip_pc_toNat (s : State) : s.skip.pc.toNat = (s.pc.toNat + 2) % 65536 :=
  BitVec.toNat_add ..

/-- Settles O57: a match skips and empties the latch; without one the state is the old one. -/
theorem skipIfKeySkipsAndConsumesOnMatch : Obligations.SkipIfKeySkipsAndConsumesOnMatch := by
  intro s x
  refine ⟨if keyMatches s x then s.skip.setKey none else s, rfl, fun hmatch => ?_, fun hmiss => ?_⟩
  · rw [if_pos (keyMatches_iff.mpr hmatch)]
    exact ⟨s.skip_pc_toNat, rfl, changesOnly_seq (setPc_changesOnly s _) (setKey_changesOnly _ _) fun _ => id⟩
  · rw [if_neg (mt keyMatches_iff.mp hmiss)]

/-- Settles O58: a match only empties the latch; without one the instruction only skips. -/
theorem skipIfNotKeyConsumesOnMatchWithoutSkipping : Obligations.SkipIfNotKeyConsumesOnMatchWithoutSkipping := by
  intro s x
  refine ⟨if keyMatches s x then s.setKey none else s.skip, rfl, fun hmatch => ?_, fun hmiss => ?_⟩
  · rw [if_pos (keyMatches_iff.mpr hmatch)]
    exact ⟨rfl, setKey_changesOnly s none⟩
  · rw [if_neg (mt keyMatches_iff.mp hmiss)]
    exact ⟨s.skip_pc_toNat, setPc_changesOnly s _⟩

end Sys2Proof.Machine
end

section
/-! LOAD (R225, R226): an image of at most `maxImage` bytes is one block write from PROG_BASE on, a longer one is
refused. -/

namespace Sys2Proof.Machine

/-- R226: the largest image ends at the last byte of memory. -/
theorem progBase_add_maxImage : progBase + maxImage = memSize := rfl

/-- R225: LOAD of an image that fits. -/
theorem transact_load_of_fits {image : List Byte} (h : image.length ≤ maxImage) (s : State) :
    transact (.load image) s = .next (s.writeBlock progBase image) :=
  if_pos h

/-- R226: LOAD of a longer image has no meaning. -/
theorem transact_load_of_too_long {image : List Byte} (h : maxImage < image.length) (s : State) :
    transact (.load image) s = .refused .imageTooLong :=
  if_neg h.not_ge

/-- Settles O7: a fitting image is a block inside memory, read back byte by byte, with the block write's frame. -/
theorem loadPlacesTheImageFromProgBase : Obligations.LoadPlacesTheImageFromProgBase := by
  intro s image hlen
  have hfits : progBase + image.length ≤ memSize :=
    (Nat.add_le_add_left hlen progBase).trans_eq progBase_add_maxImage
  exact ⟨s.writeBlock progBase image, transact_load_of_fits hlen s,
    fun _ hk => State.readByte_writeBlock_add hfits hk, writeBlock_changesOnly s progBase image⟩

/-- Settles O8: the two cases of the length check exclude each other. -/
theorem loadRefusesExactlyTheImagesThatDoNotFit : Obligations.LoadRefusesExactlyTheImagesThatDoNotFit :=
  fun s _ => ⟨fun hlong => transact_load_of_too_long hlong s, fun hlen => ⟨_, transact_load_of_fits hlen s⟩⟩

end Sys2Proof.Machine
end
